-- ==== Sys2Proof/Word.lean ====
section
/-! DEFINITION. The words of CORE: the 32-bit data word, the 33-bit ALU latch, the 40-bit instruction word and the
character code, with how an integer enters a register. Registers are read as signed integers with `BitVec.toInt`. -/

namespace Sys2Proof

/-- A data word: ACC, DA, DR, PC, FAULT_INFO and every cell of DMEM (R8, R21 to R25, R30, R61). -/
abbrev Word := BitVec 32

/-- The ALU output latch, one bit wider than ACC, so that a sum or difference is exact (R24). -/
abbrev AluWord := BitVec 33

/-- An instruction word `I40` (R83). -/
abbrev InstrWord := BitVec 40

/-- The code of a character, an integer in [0, 1114111] (R36, R37). -/
abbrev CharCode := Fin 1114112

/-- The 32-bit two's-complement word of an integer; exact on [MIN32, MAX32]. -/
def Word.ofInt (v : Int) : Word := BitVec.ofInt 32 v

/-- The ALU latch's word of an integer; exact on [-(2^32), 2^32 - 1]. -/
def AluWord.ofInt (v : Int) : AluWord := BitVec.ofInt 33 v

end Sys2Proof
end

