-- ==== Sys2Proof/Config.lean ====
section
/-! DEFINITION. The constants of R5, the bounds of R242, the remainder conventions of R156, and the parameters
the model takes where R5 names no value. -/

namespace Sys2Proof.Config

/-- Width of a data word, of DR and of an argument (R5). -/
abbrev wordBits : Nat := 32

/-- The greatest value of ACC (R5). -/
abbrev max32 : Int := 2147483647

/-- The least value of ACC (R5). -/
abbrev min32 : Int := -2147483648

/-- The last character code, 0x10FFFF (R36, R126). -/
abbrev maxCharCode : Int := 1114111

/-- MEM_SIZE's default (R5: "size = 256 (configurable)"). -/
def defaultMemSize : Nat := 256

/-- DESIGN CHOICE (log 3): the LIMIT of `State.reset`. R5 gives no default, "typical values 1000–2000". -/
def resetLimit : Nat := 1000

/-- MEM_SIZE is at most 2^31 (R242 a). -/
abbrev maxMemSize : Nat := 2147483648

/-- PROG_LEN is at most 2^31 - 1 (R242 d). -/
abbrev maxProgLen : Nat := 2147483647

/-- LIMIT is below this (R242 f). -/
abbrev limitBound : Nat := 4294967296

/-- The element the loader appends to the input (R36, R242 e). -/
def terminator : CharCode := 0

/-- REM, the sign convention of the remainder (R5, R156): floored is the spec's value; the other two are the
conventions of R156's contrast columns (log 5). -/
inductive Remainder where
  /-- the result is zero or has the sign of the divisor -/
  | floored
  /-- the result is zero or has the sign of the dividend -/
  | truncated
  /-- the result is never negative -/
  | euclidean
deriving DecidableEq, Repr

end Sys2Proof.Config
end

