-- ==== Sys2Proof/Syntax.lean ====
section
/-! DEFINITION. The instruction as syntax: opcode, mode and record of R80 to R88, and the one inductive of
instructions, a constructor for each row of spec/opcode_table.json. -/

namespace Sys2Proof

/-- The 16 opcodes (R80, R84), in the order of their numbers. -/
inductive Opcode where
  | ld
  | st
  | add
  | sub
  | div
  | cmp
  | jmp
  | jz
  | jnz
  | jn
  | jle
  | jge
  | inp
  | out
  | outc
  | hlt
deriving DecidableEq, Repr

/-- The addressing modes (R80, R85); `absent` is NONE, the record without a mode. -/
inductive Mode where
  | absent
  | immediate
  | direct
  | indirect
deriving DecidableEq, Repr

/-- An instruction as a record of its three fields (R80, R88). An absent argument is 0 and an absent mode is
`absent` (R92). -/
structure Record where
  opcode : Opcode
  mode   : Mode
  arg    : Int
deriving DecidableEq, Repr

/-- Why a word or a record is illegal (R87). -/
inductive Illegal where
  /-- (a) the bits [33:32] are not 00 -/
  | reservedBits
  /-- (b) a memory-operand opcode with mode NONE -/
  | missingMode
deriving DecidableEq, Repr

/-- The legal instructions (R87), one constructor for each row of spec/opcode_table.json. `arg` is the signed
argument of R86. A jump keeps its mode, and a no-operand opcode its mode and argument, though it ignores them:
"the record keeps ignored fields" (R92). -/
inductive Instr where
  /-- LD, IMMEDIATE (R140) -/
  | ldImmediate (arg : Int)
  /-- LD, DIRECT (R140) -/
  | ldDirect (arg : Int)
  /-- LD, INDIRECT (R140) -/
  | ldIndirect (arg : Int)
  /-- ST, IMMEDIATE (R141) -/
  | stImmediate (arg : Int)
  /-- ST, DIRECT (R141) -/
  | stDirect (arg : Int)
  /-- ST, INDIRECT (R141) -/
  | stIndirect (arg : Int)
  /-- ADD, IMMEDIATE (R150) -/
  | addImmediate (arg : Int)
  /-- ADD, DIRECT (R150) -/
  | addDirect (arg : Int)
  /-- ADD, INDIRECT (R150) -/
  | addIndirect (arg : Int)
  /-- SUB, IMMEDIATE (R151) -/
  | subImmediate (arg : Int)
  /-- SUB, DIRECT (R151) -/
  | subDirect (arg : Int)
  /-- SUB, INDIRECT (R151) -/
  | subIndirect (arg : Int)
  /-- DIV, IMMEDIATE (R153) -/
  | divImmediate (arg : Int)
  /-- DIV, DIRECT (R153) -/
  | divDirect (arg : Int)
  /-- DIV, INDIRECT (R153) -/
  | divIndirect (arg : Int)
  /-- CMP, IMMEDIATE (R152) -/
  | cmpImmediate (arg : Int)
  /-- CMP, DIRECT (R152) -/
  | cmpDirect (arg : Int)
  /-- CMP, INDIRECT (R152) -/
  | cmpIndirect (arg : Int)
  /-- JMP (R170) -/
  | jmp (mode : Mode) (arg : Int)
  /-- JZ (R171) -/
  | jz (mode : Mode) (arg : Int)
  /-- JNZ (R172) -/
  | jnz (mode : Mode) (arg : Int)
  /-- JN (R173) -/
  | jn (mode : Mode) (arg : Int)
  /-- JLE (R174) -/
  | jle (mode : Mode) (arg : Int)
  /-- JGE (R175) -/
  | jge (mode : Mode) (arg : Int)
  /-- IN (R190) -/
  | inp (mode : Mode) (arg : Int)
  /-- OUT (R191) -/
  | out (mode : Mode) (arg : Int)
  /-- OUTC (R192) -/
  | outc (mode : Mode) (arg : Int)
  /-- HLT (R193) -/
  | hlt (mode : Mode) (arg : Int)
deriving DecidableEq, Repr

/-- The fields of an instruction (R88). -/
def Instr.toRecord : Instr → Record
  | .ldImmediate a => ⟨.ld, .immediate, a⟩
  | .ldDirect a => ⟨.ld, .direct, a⟩
  | .ldIndirect a => ⟨.ld, .indirect, a⟩
  | .stImmediate a => ⟨.st, .immediate, a⟩
  | .stDirect a => ⟨.st, .direct, a⟩
  | .stIndirect a => ⟨.st, .indirect, a⟩
  | .addImmediate a => ⟨.add, .immediate, a⟩
  | .addDirect a => ⟨.add, .direct, a⟩
  | .addIndirect a => ⟨.add, .indirect, a⟩
  | .subImmediate a => ⟨.sub, .immediate, a⟩
  | .subDirect a => ⟨.sub, .direct, a⟩
  | .subIndirect a => ⟨.sub, .indirect, a⟩
  | .divImmediate a => ⟨.div, .immediate, a⟩
  | .divDirect a => ⟨.div, .direct, a⟩
  | .divIndirect a => ⟨.div, .indirect, a⟩
  | .cmpImmediate a => ⟨.cmp, .immediate, a⟩
  | .cmpDirect a => ⟨.cmp, .direct, a⟩
  | .cmpIndirect a => ⟨.cmp, .indirect, a⟩
  | .jmp m a => ⟨.jmp, m, a⟩
  | .jz m a => ⟨.jz, m, a⟩
  | .jnz m a => ⟨.jnz, m, a⟩
  | .jn m a => ⟨.jn, m, a⟩
  | .jle m a => ⟨.jle, m, a⟩
  | .jge m a => ⟨.jge, m, a⟩
  | .inp m a => ⟨.inp, m, a⟩
  | .out m a => ⟨.out, m, a⟩
  | .outc m a => ⟨.outc, m, a⟩
  | .hlt m a => ⟨.hlt, m, a⟩

end Sys2Proof
end

