-- ==== Sys2Proof/WellFormed.lean ====
section
/-! DEFINITION. Well-formed syntax: an argument that fits the 32-bit field (R86), a mode where the operand fetch
needs one and reserved bits that are 00 (R87). -/

namespace Sys2Proof

/-- The argument fits 32 bits signed: a record whose argument does not "cannot be encoded and is refused at load"
(R86). -/
def fitsWord (v : Int) : Bool := decide (Config.min32 ≤ v) && decide (v ≤ Config.max32)

/-- The opcodes that fetch an operand (R81 a). -/
def Opcode.isMemoryOperand : Opcode → Bool
  | .ld | .st | .add | .sub | .div | .cmp => true
  | .jmp | .jz | .jnz | .jn | .jle | .jge | .inp | .out | .outc | .hlt => false

/-- A memory-operand record carries a mode (R81 a, R87 b). -/
def Record.hasNeededMode (r : Record) : Bool :=
  !(r.opcode.isMemoryOperand && r.mode == .absent)

/-- A record that has a legal word (R86, R87). -/
def Record.wf (r : Record) : Bool := fitsWord r.arg && r.hasNeededMode

/-- A well-formed instruction: its argument fits (its mode is there by its constructor). -/
def Instr.wf (i : Instr) : Bool := i.toRecord.wf

end Sys2Proof
end

