-- ==== Sys2Proof/Decode.lean ====
section
/-! DEFINITION. Decoding of the 40-bit word, total and rejecting by name (R83 to R88), and after it the encoder
(R92) and the assembly spelling (R90). -/

namespace Sys2Proof

/-- Bits [39:36] (R83). -/
def InstrWord.opcodeField (w : InstrWord) : BitVec 4 := w.extractLsb' 36 4

/-- Bits [35:34] (R83). -/
def InstrWord.modeField (w : InstrWord) : BitVec 2 := w.extractLsb' 34 2

/-- Bits [33:32] (R83). -/
def InstrWord.rsvField (w : InstrWord) : BitVec 2 := w.extractLsb' 32 2

/-- Bits [31:0] (R83). -/
def InstrWord.argField (w : InstrWord) : Word := w.extractLsb' 0 32

/-- The opcode of a number (R84); all 16 values are used. -/
def Opcode.ofCode (c : BitVec 4) : Opcode :=
  match c.toNat with
  | 0 => .ld
  | 1 => .st
  | 2 => .add
  | 3 => .sub
  | 4 => .div
  | 5 => .cmp
  | 6 => .jmp
  | 7 => .jz
  | 8 => .jnz
  | 9 => .jn
  | 10 => .jle
  | 11 => .jge
  | 12 => .inp
  | 13 => .out
  | 14 => .outc
  | _ => .hlt

/-- The mode of a number (R85). -/
def Mode.ofCode (c : BitVec 2) : Mode :=
  match c.toNat with
  | 0 => .absent
  | 1 => .immediate
  | 2 => .direct
  | _ => .indirect

/-- The instruction of a record; a memory-operand opcode without a mode is illegal (R87 b), and every other
opcode keeps the mode it ignores. -/
def Record.toInstr (r : Record) : Except Illegal Instr :=
  match r.opcode, r.mode with
  | .ld, .absent => .error .missingMode
  | .ld, .immediate => .ok (.ldImmediate r.arg)
  | .ld, .direct => .ok (.ldDirect r.arg)
  | .ld, .indirect => .ok (.ldIndirect r.arg)
  | .st, .absent => .error .missingMode
  | .st, .immediate => .ok (.stImmediate r.arg)
  | .st, .direct => .ok (.stDirect r.arg)
  | .st, .indirect => .ok (.stIndirect r.arg)
  | .add, .absent => .error .missingMode
  | .add, .immediate => .ok (.addImmediate r.arg)
  | .add, .direct => .ok (.addDirect r.arg)
  | .add, .indirect => .ok (.addIndirect r.arg)
  | .sub, .absent => .error .missingMode
  | .sub, .immediate => .ok (.subImmediate r.arg)
  | .sub, .direct => .ok (.subDirect r.arg)
  | .sub, .indirect => .ok (.subIndirect r.arg)
  | .div, .absent => .error .missingMode
  | .div, .immediate => .ok (.divImmediate r.arg)
  | .div, .direct => .ok (.divDirect r.arg)
  | .div, .indirect => .ok (.divIndirect r.arg)
  | .cmp, .absent => .error .missingMode
  | .cmp, .immediate => .ok (.cmpImmediate r.arg)
  | .cmp, .direct => .ok (.cmpDirect r.arg)
  | .cmp, .indirect => .ok (.cmpIndirect r.arg)
  | .jmp, m => .ok (.jmp m r.arg)
  | .jz, m => .ok (.jz m r.arg)
  | .jnz, m => .ok (.jnz m r.arg)
  | .jn, m => .ok (.jn m r.arg)
  | .jle, m => .ok (.jle m r.arg)
  | .jge, m => .ok (.jge m r.arg)
  | .inp, m => .ok (.inp m r.arg)
  | .out, m => .ok (.out m r.arg)
  | .outc, m => .ok (.outc m r.arg)
  | .hlt, m => .ok (.hlt m r.arg)

/-- The three fields of a word whose reserved bits are 00, the argument sign-extended (R86, R88). -/
def InstrWord.record (w : InstrWord) : Record :=
  ⟨Opcode.ofCode (InstrWord.opcodeField w), Mode.ofCode (InstrWord.modeField w), (InstrWord.argField w).toInt⟩

/-- Decoding, total on the 40-bit words (R87, R88). It looks at no state. -/
def decode (w : InstrWord) : Except Illegal Instr :=
  if InstrWord.rsvField w = 0#2 then (InstrWord.record w).toInstr else .error .reservedBits

/-- The number of an opcode (R84). -/
def Opcode.code : Opcode → BitVec 4
  | .ld => 0#4
  | .st => 1#4
  | .add => 2#4
  | .sub => 3#4
  | .div => 4#4
  | .cmp => 5#4
  | .jmp => 6#4
  | .jz => 7#4
  | .jnz => 8#4
  | .jn => 9#4
  | .jle => 10#4
  | .jge => 11#4
  | .inp => 12#4
  | .out => 13#4
  | .outc => 14#4
  | .hlt => 15#4

/-- The number of a mode (R85). -/
def Mode.code : Mode → BitVec 2
  | .absent => 0#2
  | .immediate => 1#2
  | .direct => 2#2
  | .indirect => 3#2

/-- The word of four fields, the first the most significant (R83). -/
def packWord (opcode : BitVec 4) (mode rsv : BitVec 2) (arg : Word) : InstrWord := opcode ++ mode ++ rsv ++ arg

/-- The word of a record, with `rsv = 00` (R92). A memory-operand record without a mode has an illegal word. -/
def Record.encode (r : Record) : InstrWord := packWord r.opcode.code r.mode.code 0#2 (Word.ofInt r.arg)

/-- The word of an instruction (R92). -/
def encode (i : Instr) : InstrWord := i.toRecord.encode

/-- The instruction of the word whose low `nbits` bits are those of `w`, numbered from the least significant bit,
and whose other bits are 0; none where the decoder rejects it. Every row of the table has 40 bits. -/
def decodeTableWord (nbits w : Nat) : Option Instr :=
  match decode (BitVec.ofNat 40 (w % 2 ^ nbits)) with
  | .ok i => some i
  | .error _ => none

/-- The name of an opcode (R84). -/
def Opcode.mnemonic : Opcode → String
  | .ld => "LD"
  | .st => "ST"
  | .add => "ADD"
  | .sub => "SUB"
  | .div => "DIV"
  | .cmp => "CMP"
  | .jmp => "JMP"
  | .jz => "JZ"
  | .jnz => "JNZ"
  | .jn => "JN"
  | .jle => "JLE"
  | .jge => "JGE"
  | .inp => "IN"
  | .out => "OUT"
  | .outc => "OUTC"
  | .hlt => "HLT"

/-- The name of a mode (R80); NONE has no spelling. -/
def Mode.spelling : Mode → String
  | .absent => ""
  | .immediate => "IMMEDIATE"
  | .direct => "DIRECT"
  | .indirect => "INDIRECT"

/-- The assembly spelling (R90): an ignored field is not spelled. -/
def Record.assembly (r : Record) : String :=
  match r.opcode with
  | .ld | .st | .add | .sub | .div | .cmp =>
    r.opcode.mnemonic ++ " " ++ toString r.arg ++ ", " ++ r.mode.spelling
  | .jmp | .jz | .jnz | .jn | .jle | .jge => r.opcode.mnemonic ++ " " ++ toString r.arg
  | .inp | .out | .outc | .hlt => r.opcode.mnemonic

/-- The assembly spelling of an instruction (R90). -/
def Instr.assembly (i : Instr) : String := i.toRecord.assembly

end Sys2Proof
end

