-- ==== Sys2Proof/Machine/State.lean ====
section
/-! DEFINITION. The state of CORE as plain data (R20), its reset value (R39, R240), and the reasons a step can
stop. -/

namespace Sys2Proof.Machine

/-- The lifecycle of the core (R29). -/
inductive RunState where
  /-- 0: the core executes instructions -/
  | running
  /-- 1: a HLT has executed -/
  | halted
  /-- 2: a fatal in-run condition occurred (R208) -/
  | faulted
  /-- 3: ICOUNT reached LIMIT without a halt (R212) -/
  | wdogStopped
deriving DecidableEq, Repr

/-- The fault causes (R201). -/
inductive FaultCause where
  /-- 0: RUN_STATE is not FAULTED -/
  | none
  /-- 1: a value outside [0, MEM_SIZE) was to be latched into DA (R202) -/
  | outOfMemoryAddress
  /-- 2: DIV with DR = 0 (R203) -/
  | divisionByZero
  /-- 3: IN with no remaining input (R204) -/
  | endOfInput
  /-- 4: the fetched word is illegal (R205) -/
  | illegalInstruction
  /-- 5: PC does not index the program (R206) -/
  | pcOutOfRange
  /-- 6: OUT or OUTC with ACC the code of no character (R207) -/
  | outputRange
deriving DecidableEq, Repr

/-- The data memory DMEM as the words that are not 0, by address (R34, R60). Its canonical form is
`Memory.wf`. Word-addressed: R62 forbids a view in bytes (log 7). -/
structure Memory where
  cells : List (Nat × Word)
deriving DecidableEq, Repr

/-- The complete state (R20) and, below it, the parameters of the run, which no step changes (R5; log 1). -/
structure State where
  /-- accumulator, R21 -/
  acc : Word
  /-- data-address register, R22 -/
  da : Word
  /-- data register, R23 -/
  dr : Word
  /-- ALU output latch, R24 -/
  alu : AluWord
  /-- data memory, R34 -/
  dmem : Memory
  /-- input cursor, R36 -/
  inCur : Nat
  /-- output sequence, oldest element first, R37 -/
  output : List CharCode
  /-- program counter, R25 -/
  pc : Word
  /-- instruction register, R26 -/
  ir : InstrWord
  /-- tick counter, R31 -/
  tick : Nat
  /-- lifecycle, R29 -/
  runState : RunState
  /-- cause of the fault, R30 -/
  faultCause : FaultCause
  /-- information word of the fault, R30 -/
  faultInfo : Word
  /-- sticky overflow flag, R28 -/
  ovf : Bool
  /-- instruction counter, R32 -/
  icount : Nat
  /-- the program store PMEM, one word an index, R35 -/
  prog : List InstrWord
  /-- the input sequence, R36 -/
  input : List CharCode
  /-- MEM_SIZE, R5 -/
  memSize : Nat
  /-- LIMIT, R33 -/
  limit : Nat
  /-- REM, R5 and R156 -/
  rem : Config.Remainder
deriving DecidableEq, Repr

/-- Why a step stops without a next state: the core has no step in a terminal state (R29, R210). A fault of a
PROGRAM is no such stop: its entry is a next state (R208; log 6). -/
inductive Fault where
  /-- Raised by `step` when RUN_STATE is HALTED, the one successful end (R247). Safe: the hardware does nothing. -/
  | noStepHalted
  /-- Raised by `step` when RUN_STATE is FAULTED (R200, R210). Safe: the hardware does nothing. -/
  | noStepFaulted
  /-- Raised by `step` when RUN_STATE is WDOG_STOPPED (R212). Safe: the hardware does nothing. -/
  | noStepWdogStopped
deriving DecidableEq, Repr

/-- Why the model gives an instruction no meaning. No arm of `exec` answers so. -/
inductive Refusal where
  /-- Raised by an arm of `exec` that has no meaning yet (there is none). Safe: nothing is claimed of it. -/
  | notModelled (mnemonic : String)
deriving DecidableEq, Repr

/-- The number of a run state (R29). -/
def RunState.number : RunState → BitVec 2
  | .running => 0#2
  | .halted => 1#2
  | .faulted => 2#2
  | .wdogStopped => 3#2

/-- The number of a fault cause (R201). -/
def FaultCause.number : FaultCause → BitVec 3
  | .none => 0#3
  | .outOfMemoryAddress => 1#3
  | .divisionByZero => 2#3
  | .endOfInput => 3#3
  | .illegalInstruction => 4#3
  | .pcOutOfRange => 5#3
  | .outputRange => 6#3

/-- DMEM with every word 0 (R34: "otherwise zero"). -/
def Memory.zero : Memory := ⟨[]⟩

/-- The machine right after reset (R39, R240), with no program and no data segment, the input of an empty user
text, MEM_SIZE's default, the model's LIMIT and the floored REM (log 2 to log 5). `load` of Machine/Boot.lean is
the reset for given parameters. -/
def State.reset : State where
  acc := 0#32
  da := 0#32
  dr := 0#32
  alu := 0#33
  dmem := Memory.zero
  inCur := 0
  output := []
  pc := 0#32
  ir := 0#40
  tick := 0
  runState := .running
  faultCause := .none
  faultInfo := 0#32
  ovf := false
  icount := 0
  prog := []
  input := [Config.terminator]
  memSize := Config.defaultMemSize
  limit := Config.resetLimit
  rem := .floored

end Sys2Proof.Machine
end

