-- ==== Sys2Proof/Machine/Flags.lean ====
section
/-! DEFINITION. The flags Z, N and OVF, the accumulator wrap, the remainder and the branch conditions: everything
the spec computes from values alone (R27, R154, R156, R157, R176). -/

namespace Sys2Proof.Machine

/-- `zero_flag()`, Z (R27, R127). -/
def zeroFlag (acc : Word) : Bool := decide (acc.toInt = 0)

/-- `negative_flag()`, N (R27, R127). -/
def negativeFlag (acc : Word) : Bool := decide (acc.toInt < 0)

/-- The accumulator wrap function, a one-shot flip on exact integers (R154). -/
def wrap32 (v : Int) : Int :=
  if v > Config.max32 then Config.min32
  else if v < Config.min32 then Config.max32
  else v

/-- The condition that sets OVF (R157). -/
def overflows (v : Int) : Bool := decide (v > Config.max32) || decide (v < Config.min32)

/-- `x mod y` by the convention REM (R156), for `y` not 0. -/
def remainder (rem : Config.Remainder) (x y : Int) : Int :=
  match rem with
  | .floored => Int.fmod x y
  | .truncated => Int.tmod x y
  | .euclidean => Int.emod x y

/-- JZ branches on `Z` (R171, R176). -/
def branchZ (acc : Word) : Bool := zeroFlag acc

/-- JNZ branches on `¬Z` (R172, R176). -/
def branchNZ (acc : Word) : Bool := !zeroFlag acc

/-- JN branches on `¬N` (R173, R176). -/
def branchN (acc : Word) : Bool := !negativeFlag acc

/-- JLE branches on `¬(N ∨ (¬N ∧ Z))` (R174, R176). -/
def branchLE (acc : Word) : Bool := !(negativeFlag acc || (!negativeFlag acc && zeroFlag acc))

/-- JGE branches on `¬Z ∧ N` (R175, R176). -/
def branchGE (acc : Word) : Bool := !zeroFlag acc && negativeFlag acc

end Sys2Proof.Machine
end

