-- ==== Sys2Proof/Machine/Memory.lean ====
section
/-! DEFINITION. The memory primitives of R65 over the canonical list of words, and the data-segment load of R74. -/

namespace Sys2Proof.Machine

/-- What an unlisted address reads as: "remaining addresses default to 0" (R34, R39, R67; log 8). -/
def unlistedWord : Word := 0#32

/-- The word at an address in a list of cells. -/
def readCells : List (Nat × Word) → Nat → Word
  | [], _ => unlistedWord
  | (k, v) :: rest, a => if k = a then v else readCells rest a

/-- The list with the word at an address set: rising addresses stay so, and a word equal to what an unlisted
address reads as is not listed. -/
def writeCells : List (Nat × Word) → Nat → Word → List (Nat × Word)
  | [], a, v => if v = unlistedWord then [] else [(a, v)]
  | (k, u) :: rest, a, v =>
    if k < a then (k, u) :: writeCells rest a v
    else if k = a then (if v = unlistedWord then rest else (a, v) :: rest)
    else if v = unlistedWord then (k, u) :: rest
    else (a, v) :: (k, u) :: rest

/-- The canonical form of a list of cells: strictly rising addresses, none reading as an unlisted one does. -/
def cellsWf : List (Nat × Word) → Bool
  | [] => true
  | (k, v) :: rest => v != unlistedWord && rest.all (fun c => decide (k < c.1)) && cellsWf rest

/-- The words of a segment from an address on (R74). -/
def segmentCells : Nat → List Word → List (Nat × Word)
  | _, [] => []
  | a, v :: rest => if v = unlistedWord then segmentCells (a + 1) rest else (a, v) :: segmentCells (a + 1) rest

/-- The canonical form of a memory. -/
def Memory.wf (m : Memory) : Bool := cellsWf m.cells

/-- Every listed address is below a size. -/
def Memory.below (m : Memory) (size : Nat) : Bool := m.cells.all (fun c => decide (c.1 < size))

/-- `MemRead(a, 1)` (R65). -/
def Memory.read (m : Memory) (a : Nat) : Word := readCells m.cells a

/-- `MemWrite(a, 1, v)` (R65). -/
def Memory.write (m : Memory) (a : Nat) (v : Word) : Memory := ⟨writeCells m.cells a v⟩

/-- `DMEM[a] <- DATA_SEG[a]` for `a < len(DATA_SEG)`, 0 elsewhere (R39, R74). -/
def Memory.ofSegment (seg : List Word) : Memory := ⟨segmentCells 0 seg⟩

end Sys2Proof.Machine
end

