-- ==== Sys2Proof/Machine/Ops.lean ====
section
/-! DEFINITION. Taking a fault, the signal groups, the data-path signals of R120 to R128, fetch and completion:
the operations every meaning is made of. There is no return from a fault (R210), so none stands beside its entry. -/

namespace Sys2Proof.Machine

/-- Fault entry, `raise F(info)` (R208): nothing is saved anywhere else and control goes nowhere. -/
def State.raiseFault (cause : FaultCause) (info : Word) (s : State) : State :=
  { s with runState := .faulted, faultCause := cause, faultInfo := info }

/-- What a signal group, or a sequence of them, ends in (R114): all of it performed, or the state FAULTED in
which the failing group performed none of its transfers. -/
inductive Group where
  | completed (s : State)
  | faulted (s : State)
deriving DecidableEq, Repr

/-- The next transfers or groups, unless a signal failed before (R110: a `raise` ends the step). -/
def Group.andThen (g : Group) (f : State → Group) : Group :=
  match g with
  | .completed s => f s
  | .faulted s => .faulted s

/-- `tick`, the end of a signal group (R114). -/
def State.countTick (s : State) : State := { s with tick := s.tick + 1 }

/-- `PC <- PC + 1` (R128). -/
def State.pcNext (s : State) : State := { s with pc := s.pc + 1#32 }

/-- `PC <- arg` (R128, R177): any argument is stored, unchecked. -/
def State.pcJump (target : Word) (s : State) : State := { s with pc := target }

/-- `0 <= v < MEM_SIZE`, the bounds check (R64). -/
def State.legalAddress (s : State) (v : Word) : Bool := decide (0 ≤ v.toInt) && decide (v.toInt < s.memSize)

/-- `latch_data_address` with the value `v` of DR or of the argument (R120). -/
def latchDataAddress (v : Word) (s : State) : Group :=
  if s.legalAddress v then .completed { s with da := v } else .faulted (s.raiseFault .outOfMemoryAddress v)

/-- `read_memory()` (R122). -/
def State.readMemory (s : State) : Word := s.dmem.read s.da.toNat

/-- `latch_data_register` with the argument or the word read (R121). -/
def State.latchDataRegister (v : Word) (s : State) : State := { s with dr := v }

/-- `write_memory()` (R124). -/
def State.writeMemory (s : State) : State := { s with dmem := s.dmem.write s.da.toNat s.acc }

/-- `alu_add` (R125): the exact sum. -/
def State.aluAdd (s : State) : State := { s with alu := AluWord.ofInt (s.acc.toInt + s.dr.toInt) }

/-- `alu_sub` (R125): the exact difference. -/
def State.aluSub (s : State) : State := { s with alu := AluWord.ofInt (s.acc.toInt - s.dr.toInt) }

/-- `alu_div` (R125): the remainder, or DivisionByZero. -/
def aluDiv (s : State) : Group :=
  if s.dr.toInt = 0 then .faulted (s.raiseFault .divisionByZero 0#32)
  else .completed { s with alu := AluWord.ofInt (remainder s.rem s.acc.toInt s.dr.toInt) }

/-- `alu_pass_right` (R125). -/
def State.aluPassRight (s : State) : State := { s with alu := AluWord.ofInt s.dr.toInt }

/-- `latch_accumulator` FROM_ALU (R123, R154, R157). -/
def State.latchAccFromAlu (s : State) : State :=
  { s with acc := Word.ofInt (wrap32 s.alu.toInt), ovf := s.ovf || overflows s.alu.toInt }

/-- `latch_accumulator` FROM_INPUT (R123): no wrap, and the cursor moves. -/
def latchAccFromInput (s : State) : Group :=
  match s.input[s.inCur]? with
  | some c => .completed { s with acc := Word.ofInt c.val, inCur := s.inCur + 1 }
  | none => .faulted (s.raiseFault .endOfInput 0#32)

/-- The character code of an accumulator value, where there is one (R126). -/
def charCode (acc : Word) : Option CharCode :=
  if h : 0 ≤ acc.toInt ∧ acc.toInt ≤ Config.maxCharCode then
    some ⟨acc.toInt.toNat, by simp only [Config.maxCharCode] at h; omega⟩
  else none

/-- `emit_output()` (R126). -/
def emitOutput (s : State) : Group :=
  match charCode s.acc with
  | some c => .completed { s with output := s.output ++ [c] }
  | none => .faulted (s.raiseFault .outputRange s.acc)

/-- Fetch (R111, R75): the range check of PC, then `IR <- Fetch(PC)`; no tick. -/
def fetch (s : State) : Group :=
  if 0 ≤ s.pc.toInt then
    match s.prog[s.pc.toInt.toNat]? with
    | some w => .completed { s with ir := w }
    | none => .faulted (s.raiseFault .pcOutOfRange s.pc)
  else .faulted (s.raiseFault .pcOutOfRange s.pc)

/-- Completion (R113), `halt` when the instruction was HLT. -/
def State.complete (halt : Bool) (s : State) : State :=
  { s with
    icount := s.icount + 1
    runState := if halt then .halted else if s.icount + 1 = s.limit then .wdogStopped else s.runState }

/-- The end of an instruction: completion, or the FAULTED state as it stands (R110, R208). -/
def Group.finish (halt : Bool) (g : Group) : Host.Outcome State Fault Refusal :=
  match g with
  | .completed s => .next (s.complete halt)
  | .faulted s => .next s

/-- A program with a word at an index, lengthened by words of 0 where it is shorter (for `withFetchWord`). -/
def placeWord (prog : List InstrWord) (index : Nat) (w : InstrWord) : List InstrWord :=
  (prog ++ List.replicate (index + 1 - prog.length) 0#40).set index w

end Sys2Proof.Machine
end

