-- ==== Sys2Proof/Machine/Operands.lean ====
section
/-! DEFINITION. Operand fetch, the microcode that leaves the operand in DR (R115 to R117, R119). -/

namespace Sys2Proof.Machine

/-- The group `DA <- v` with its tick (R116, R117). -/
def addressGroup (v : Word) (s : State) : Group :=
  (latchDataAddress v s).andThen fun t => .completed t.countTick

/-- The group `DR <- MemRead(DA, 1)` with its tick (R116, R117; read and latch share it, R122). -/
def readGroup (s : State) : Group := .completed (s.latchDataRegister s.readMemory).countTick

/-- Operand fetch, mode IMMEDIATE (R115). -/
def fetchImmediate (arg : Int) (s : State) : Group := .completed (s.latchDataRegister (Word.ofInt arg)).countTick

/-- Operand fetch, mode DIRECT (R116). -/
def fetchDirect (arg : Int) (s : State) : Group := (addressGroup (Word.ofInt arg) s).andThen readGroup

/-- Operand fetch, mode INDIRECT (R117). -/
def fetchIndirect (arg : Int) (s : State) : Group :=
  (fetchDirect arg s).andThen fun t => (addressGroup t.dr t).andThen readGroup

end Sys2Proof.Machine
end

