-- ==== Sys2Proof/Machine/Arithmetic.lean ====
section
/-! DEFINITION. The meanings of ADD, SUB, CMP and DIV (R150 to R153). -/

namespace Sys2Proof.Machine

/-- The last execute group of ADD, SUB, CMP and DIV: `ACC <- wrap32(ALU)` (R150 to R153). -/
def accumulateGroup (s : State) : Group := .completed s.latchAccFromAlu.countTick

/-- The execute groups of ADD (R150). -/
def addGroups (s : State) : Group := accumulateGroup s.pcNext.aluAdd.countTick

/-- The execute groups of SUB (R151) and of CMP, "the same as SUB in every respect" (R152). -/
def subtractGroups (s : State) : Group := accumulateGroup s.pcNext.aluSub.countTick

/-- The execute groups of DIV (R153). -/
def remainderGroups (s : State) : Group :=
  (aluDiv s).andThen fun t => accumulateGroup t.pcNext.countTick

/-- ADD, IMMEDIATE (R150). -/
def execAddImmediate (arg : Int) (s : State) : Host.Outcome State Fault Refusal :=
  ((fetchImmediate arg s).andThen addGroups).finish false

/-- ADD, DIRECT (R150). -/
def execAddDirect (arg : Int) (s : State) : Host.Outcome State Fault Refusal :=
  ((fetchDirect arg s).andThen addGroups).finish false

/-- ADD, INDIRECT (R150). -/
def execAddIndirect (arg : Int) (s : State) : Host.Outcome State Fault Refusal :=
  ((fetchIndirect arg s).andThen addGroups).finish false

/-- SUB, IMMEDIATE (R151). -/
def execSubImmediate (arg : Int) (s : State) : Host.Outcome State Fault Refusal :=
  ((fetchImmediate arg s).andThen subtractGroups).finish false

/-- SUB, DIRECT (R151). -/
def execSubDirect (arg : Int) (s : State) : Host.Outcome State Fault Refusal :=
  ((fetchDirect arg s).andThen subtractGroups).finish false

/-- SUB, INDIRECT (R151). -/
def execSubIndirect (arg : Int) (s : State) : Host.Outcome State Fault Refusal :=
  ((fetchIndirect arg s).andThen subtractGroups).finish false

/-- CMP, IMMEDIATE (R152); it writes ACC. -/
def execCmpImmediate (arg : Int) (s : State) : Host.Outcome State Fault Refusal :=
  ((fetchImmediate arg s).andThen subtractGroups).finish false

/-- CMP, DIRECT (R152); it writes ACC. -/
def execCmpDirect (arg : Int) (s : State) : Host.Outcome State Fault Refusal :=
  ((fetchDirect arg s).andThen subtractGroups).finish false

/-- CMP, INDIRECT (R152); it writes ACC. -/
def execCmpIndirect (arg : Int) (s : State) : Host.Outcome State Fault Refusal :=
  ((fetchIndirect arg s).andThen subtractGroups).finish false

/-- DIV, IMMEDIATE (R153): the remainder. -/
def execDivImmediate (arg : Int) (s : State) : Host.Outcome State Fault Refusal :=
  ((fetchImmediate arg s).andThen remainderGroups).finish false

/-- DIV, DIRECT (R153): the remainder. -/
def execDivDirect (arg : Int) (s : State) : Host.Outcome State Fault Refusal :=
  ((fetchDirect arg s).andThen remainderGroups).finish false

/-- DIV, INDIRECT (R153): the remainder. -/
def execDivIndirect (arg : Int) (s : State) : Host.Outcome State Fault Refusal :=
  ((fetchIndirect arg s).andThen remainderGroups).finish false

end Sys2Proof.Machine
end

