-- ==== Sys2Proof/Machine/Control.lean ====
section
/-! DEFINITION. The meanings of the jumps (R170 to R177). The mode of a jump is ignored (R87). -/

namespace Sys2Proof.Machine

/-- The one group of a jump: `PC <- arg` when it branches, else `PC <- PC + 1` (R170 to R176). -/
def jumpGroup (branch : Bool) (arg : Int) (s : State) : Group :=
  .completed (if branch then s.pcJump (Word.ofInt arg) else s.pcNext).countTick

/-- JMP branches always (R170). -/
def execJmp (_mode : Mode) (arg : Int) (s : State) : Host.Outcome State Fault Refusal :=
  (jumpGroup true arg s).finish false

/-- JZ branches iff ACC = 0 (R171). -/
def execJz (_mode : Mode) (arg : Int) (s : State) : Host.Outcome State Fault Refusal :=
  (jumpGroup (branchZ s.acc) arg s).finish false

/-- JNZ branches iff ACC != 0 (R172). -/
def execJnz (_mode : Mode) (arg : Int) (s : State) : Host.Outcome State Fault Refusal :=
  (jumpGroup (branchNZ s.acc) arg s).finish false

/-- JN branches iff ACC >= 0 (R173). -/
def execJn (_mode : Mode) (arg : Int) (s : State) : Host.Outcome State Fault Refusal :=
  (jumpGroup (branchN s.acc) arg s).finish false

/-- JLE branches iff ACC > 0 (R174). -/
def execJle (_mode : Mode) (arg : Int) (s : State) : Host.Outcome State Fault Refusal :=
  (jumpGroup (branchLE s.acc) arg s).finish false

/-- JGE branches iff ACC < 0 (R175). -/
def execJge (_mode : Mode) (arg : Int) (s : State) : Host.Outcome State Fault Refusal :=
  (jumpGroup (branchGE s.acc) arg s).finish false

end Sys2Proof.Machine
end

