-- ==== Sys2Proof/Machine/InOutHalt.lean ====
section
/-! DEFINITION. The meanings of IN, OUT, OUTC and HLT (R190 to R193). Their mode and argument are ignored (R87). -/

namespace Sys2Proof.Machine

/-- The one group of IN (R190). -/
def inputGroup (s : State) : Group :=
  (latchAccFromInput s).andThen fun t => .completed t.pcNext.countTick

/-- The one group of OUT and OUTC (R191, R192). -/
def outputGroup (s : State) : Group :=
  (emitOutput s).andThen fun t => .completed t.pcNext.countTick

/-- IN (R190). -/
def execInp (_mode : Mode) (_arg : Int) (s : State) : Host.Outcome State Fault Refusal :=
  (inputGroup s).finish false

/-- OUT (R191). -/
def execOut (_mode : Mode) (_arg : Int) (s : State) : Host.Outcome State Fault Refusal :=
  (outputGroup s).finish false

/-- OUTC, the same as OUT in every respect (R192). -/
def execOutc (_mode : Mode) (_arg : Int) (s : State) : Host.Outcome State Fault Refusal :=
  (outputGroup s).finish false

/-- HLT (R193): one tick, PC unchanged, HALTED at completion. -/
def execHlt (_mode : Mode) (_arg : Int) (s : State) : Host.Outcome State Fault Refusal :=
  (Group.completed s.countTick).finish true

end Sys2Proof.Machine
end

