-- ==== Sys2Proof/Machine/LoadStore.lean ====
section
/-! DEFINITION. The meanings of LD and ST (R140, R141). -/

namespace Sys2Proof.Machine

/-- The execute group of LD (R140). -/
def loadGroup (s : State) : Group := .completed s.pcNext.aluPassRight.latchAccFromAlu.countTick

/-- The first execute group of ST (R141): the operand is the address. -/
def storeAddressGroup (s : State) : Group :=
  (latchDataAddress s.dr s).andThen fun t => .completed t.pcNext.countTick

/-- The execute groups of ST (R141). -/
def storeGroups (s : State) : Group :=
  (storeAddressGroup s).andThen fun t => .completed t.writeMemory.countTick

/-- LD, IMMEDIATE (R140). -/
def execLdImmediate (arg : Int) (s : State) : Host.Outcome State Fault Refusal :=
  ((fetchImmediate arg s).andThen loadGroup).finish false

/-- LD, DIRECT (R140). -/
def execLdDirect (arg : Int) (s : State) : Host.Outcome State Fault Refusal :=
  ((fetchDirect arg s).andThen loadGroup).finish false

/-- LD, INDIRECT (R140). -/
def execLdIndirect (arg : Int) (s : State) : Host.Outcome State Fault Refusal :=
  ((fetchIndirect arg s).andThen loadGroup).finish false

/-- ST, IMMEDIATE (R141): stores to the argument. -/
def execStImmediate (arg : Int) (s : State) : Host.Outcome State Fault Refusal :=
  ((fetchImmediate arg s).andThen storeGroups).finish false

/-- ST, DIRECT (R141): stores through the pointer at the argument. -/
def execStDirect (arg : Int) (s : State) : Host.Outcome State Fault Refusal :=
  ((fetchDirect arg s).andThen storeGroups).finish false

/-- ST, INDIRECT (R141): stores through a pointer to a pointer. -/
def execStIndirect (arg : Int) (s : State) : Host.Outcome State Fault Refusal :=
  ((fetchIndirect arg s).andThen storeGroups).finish false

end Sys2Proof.Machine
end

