-- ==== Sys2Proof/Machine/Dispatch.lean ====
section
/-! DEFINITION. Operand fetch, execute and completion of every instruction (R110 to R113): one arm for each
constructor of Instr. -/

namespace Sys2Proof.Machine

def exec (i : Instr) (s : State) : Host.Outcome State Fault Refusal :=
  match i with
  | .ldImmediate arg => Sys2Proof.Machine.execLdImmediate arg s
  | .ldDirect arg => Sys2Proof.Machine.execLdDirect arg s
  | .ldIndirect arg => Sys2Proof.Machine.execLdIndirect arg s
  | .stImmediate arg => Sys2Proof.Machine.execStImmediate arg s
  | .stDirect arg => Sys2Proof.Machine.execStDirect arg s
  | .stIndirect arg => Sys2Proof.Machine.execStIndirect arg s
  | .addImmediate arg => Sys2Proof.Machine.execAddImmediate arg s
  | .addDirect arg => Sys2Proof.Machine.execAddDirect arg s
  | .addIndirect arg => Sys2Proof.Machine.execAddIndirect arg s
  | .subImmediate arg => Sys2Proof.Machine.execSubImmediate arg s
  | .subDirect arg => Sys2Proof.Machine.execSubDirect arg s
  | .subIndirect arg => Sys2Proof.Machine.execSubIndirect arg s
  | .divImmediate arg => Sys2Proof.Machine.execDivImmediate arg s
  | .divDirect arg => Sys2Proof.Machine.execDivDirect arg s
  | .divIndirect arg => Sys2Proof.Machine.execDivIndirect arg s
  | .cmpImmediate arg => Sys2Proof.Machine.execCmpImmediate arg s
  | .cmpDirect arg => Sys2Proof.Machine.execCmpDirect arg s
  | .cmpIndirect arg => Sys2Proof.Machine.execCmpIndirect arg s
  | .jmp mode arg => Sys2Proof.Machine.execJmp mode arg s
  | .jz mode arg => Sys2Proof.Machine.execJz mode arg s
  | .jnz mode arg => Sys2Proof.Machine.execJnz mode arg s
  | .jn mode arg => Sys2Proof.Machine.execJn mode arg s
  | .jle mode arg => Sys2Proof.Machine.execJle mode arg s
  | .jge mode arg => Sys2Proof.Machine.execJge mode arg s
  | .inp mode arg => Sys2Proof.Machine.execInp mode arg s
  | .out mode arg => Sys2Proof.Machine.execOut mode arg s
  | .outc mode arg => Sys2Proof.Machine.execOutc mode arg s
  | .hlt mode arg => Sys2Proof.Machine.execHlt mode arg s

end Sys2Proof.Machine
end

