-- ==== Sys2Proof/Machine/Cycle.lean ====
section
/-! DEFINITION. The instruction cycle of a RUNNING core (R110, R209). -/

namespace Sys2Proof.Machine

/-- Decode and the rest of the cycle, after fetch has latched IR (R112): an illegal word raises
IllegalInstruction(0) with no signal issued and no tick. -/
def decodeAndExecute (s : State) : Host.Outcome State Fault Refusal :=
  match decode s.ir with
  | .ok i => exec i s
  | .error _ => .next (s.raiseFault .illegalInstruction 0#32)

/-- One instruction cycle (R110): the watchdog pre-check, fetch, decode, then the instruction. -/
def instructionCycle (s : State) : Host.Outcome State Fault Refusal :=
  if s.limit ≤ s.icount then .next { s with runState := .wdogStopped }
  else
    match fetch s with
    | .completed t => decodeAndExecute t
    | .faulted t => .next t

/-- The instruction index that `withFetchWord` places a word at: PC, or 0 where PC is negative and so no index. -/
def State.placeIndex (s : State) : Nat := if 0 ≤ s.pc.toInt then s.pc.toInt.toNat else 0

/-- A state whose next step fetches: RUNNING, no fault recorded, ICOUNT below LIMIT; a RUNNING state below its
limit is left as it is (for `withFetchWord`). -/
def State.ready (s : State) : State :=
  { s with
    runState := .running
    faultCause := if s.runState = .running then s.faultCause else .none
    faultInfo := if s.runState = .running then s.faultInfo else 0#32
    limit := if s.limit ≤ s.icount then s.icount + 1 else s.limit }

end Sys2Proof.Machine
end

