-- ==== Sys2Proof/Machine/Step.lean ====
section
/-! DEFINITION. One step of CORE (R110): a RUNNING core runs one instruction cycle; the terminal states have no
step (R29). -/

namespace Sys2Proof.Machine

/-- One step. "The core has a step exactly when `RUN_STATE = RUNNING`" (R110). -/
def step (s : State) : Host.Outcome State Fault Refusal :=
  match s.runState with
  | .running => instructionCycle s
  | .halted => .fault .noStepHalted
  | .faulted => .fault .noStepFaulted
  | .wdogStopped => .fault .noStepWdogStopped

/-- The state with the 40-bit word `w` (its bits from `nbits` on 0) stored in PMEM where the next step fetches,
standing for the host's load of a program (R243; log 2). -/
def State.withFetchWord (s : State) (nbits w : Nat) : State :=
  { s.ready with
    prog := placeWord s.prog s.placeIndex (BitVec.ofNat 40 (w % 2 ^ nbits))
    pc := BitVec.ofNat 32 s.placeIndex }

end Sys2Proof.Machine
end

