-- ==== Sys2Proof/Machine/Boot.lean ====
section
/-! DEFINITION. Reset and load: the host's one interaction before a run (R240, R242, R243), with the refusals of a
load that breaks the boot requirements (R219). -/

namespace Sys2Proof.Machine

/-- One entry of PROG (R5): an instruction record, or a 40-bit word. -/
inductive ProgEntry where
  | record (r : Record)
  | word (w : InstrWord)
deriving DecidableEq, Repr

/-- What the host supplies at reset (R5, R240), as integers that may break the requirements of R242. -/
structure LoadParams where
  prog    : List ProgEntry
  dataSeg : List Int
  input   : List CharCode
  memSize : Nat
  limit   : Nat
  rem     : Config.Remainder
deriving DecidableEq, Repr

/-- Which boot requirement of R242 a load breaks. No run starts (R219). -/
inductive LoadRefusal where
  /-- (a) MEM_SIZE outside [1, 2^31] -/
  | memSizeRange
  /-- (b) the data segment is longer than MEM_SIZE -/
  | dataSegmentTooLong
  /-- (b) a data word outside [MIN32, MAX32] -/
  | dataWordRange
  /-- (c) a record's argument outside [MIN32, MAX32] -/
  | argumentRange
  /-- (d) more than 2^31 - 1 instructions -/
  | programTooLong
  /-- (f) LIMIT not below 2^32 -/
  | limitRange
deriving DecidableEq, Repr

/-- The input of a user text: its codes, then the terminator the loader appends (R36, R242 e). -/
def inputOfText (text : List CharCode) : List CharCode := text ++ [Config.terminator]

/-- The argument of an entry fits, where it has one (R242 c). A record without a needed mode is no breach: its
word is illegal when executed (R87, R205). -/
def ProgEntry.argFits : ProgEntry → Bool
  | .record r => fitsWord r.arg
  | .word _ => true

/-- The word PMEM holds for an entry (R83, R92). -/
def ProgEntry.toWord : ProgEntry → InstrWord
  | .record r => r.encode
  | .word w => w

/-- The state of R39 for parameters that meet R242. -/
def LoadParams.initial (p : LoadParams) : State :=
  { State.reset with
    dmem := Memory.ofSegment (p.dataSeg.map Word.ofInt)
    prog := p.prog.map ProgEntry.toWord
    input := p.input
    memSize := p.memSize
    limit := p.limit
    rem := p.rem }

/-- Reset and load (R240): the reset state for the parameters, or the first requirement of R242 that they break,
in R242's order (log 20). -/
def load (p : LoadParams) : Except LoadRefusal State :=
  if !(decide (1 ≤ p.memSize) && decide (p.memSize ≤ Config.maxMemSize)) then .error .memSizeRange
  else if p.memSize < p.dataSeg.length then .error .dataSegmentTooLong
  else if !p.dataSeg.all fitsWord then .error .dataWordRange
  else if !p.prog.all ProgEntry.argFits then .error .argumentRange
  else if Config.maxProgLen < p.prog.length then .error .programTooLong
  else if Config.limitBound ≤ p.limit then .error .limitRange
  else .ok p.initial

end Sys2Proof.Machine
end

