-- ==== Sys2Proof/Safety.lean ====
section
/-! DEFINITION. The terms claims are made in: the operand of an instruction at the instruction grain (R119), its
ticks (R118), the frames, the machine's invariant, and the states a claim about hidden registers compares. -/

namespace Sys2Proof.Machine

/-- `0 <= a < MEM_SIZE`, for an address as an integer (R64). -/
def State.AddressLegal (s : State) (a : Int) : Prop := 0 ≤ a ∧ a < s.memSize

/-- `M[a]`, the signed word of DMEM at an address (R8, R65). -/
def State.cell (s : State) (a : Int) : Int := (s.dmem.read a.toNat).toInt

/-- The opcode of an instruction. -/
def opcodeOf (i : Instr) : Opcode := i.toRecord.opcode

/-- The addresses that operand fetch latches are legal (R119, column "can raise"). -/
def OperandLegal (s : State) (i : Instr) : Prop :=
  match i.toRecord.mode with
  | .absent | .immediate => True
  | .direct => s.AddressLegal i.toRecord.arg
  | .indirect => s.AddressLegal i.toRecord.arg ∧ s.AddressLegal (s.cell i.toRecord.arg)

/-- The operand that fetch leaves in DR (R119): `arg`, `M[arg]` or `M[M[arg]]`. -/
def operandOf (s : State) (i : Instr) : Int :=
  match i.toRecord.mode with
  | .absent | .immediate => i.toRecord.arg
  | .direct => s.cell i.toRecord.arg
  | .indirect => s.cell (s.cell i.toRecord.arg)

/-- DA after operand fetch (R119): unchanged, `arg` or `M[arg]`. -/
def addressAfterFetch (s : State) (i : Instr) : Int :=
  match i.toRecord.mode with
  | .absent | .immediate => s.da.toInt
  | .direct => i.toRecord.arg
  | .indirect => s.cell i.toRecord.arg

/-- Ticks of operand fetch (R118, R119). -/
def fetchTicks : Mode → Nat
  | .absent => 0
  | .immediate => 1
  | .direct => 2
  | .indirect => 4

/-- Execute ticks of an opcode (R118; those of HLT and of the conditional jumps are the spec's D4, D5). -/
def executeTicks : Opcode → Nat
  | .st | .add | .sub | .cmp | .div => 2
  | .ld | .jmp | .jz | .jnz | .jn | .jle | .jge | .inp | .out | .outc | .hlt => 1

/-- The tick total of a completed instruction (R118). -/
def tickTotal (i : Instr) : Nat :=
  (if (opcodeOf i).isMemoryOperand then fetchTicks i.toRecord.mode else 0) + executeTicks (opcodeOf i)

/-- Every word of DMEM reads as before. -/
def SameMemory (s t : State) : Prop := ∀ a, t.dmem.read a = s.dmem.read a

/-- The input cursor and the output are as before. -/
def SameInOut (s t : State) : Prop := t.inCur = s.inCur ∧ t.output = s.output

/-- DA, DR and the ALU latch are as before. -/
def SameDataPath (s t : State) : Prop := t.da = s.da ∧ t.dr = s.dr ∧ t.alu = s.alu

/-- The parameters of the run are as before (R5). -/
def SameParameters (s t : State) : Prop :=
  t.prog = s.prog ∧ t.input = s.input ∧ t.memSize = s.memSize ∧ t.limit = s.limit ∧ t.rem = s.rem

/-- Completion of an instruction other than HLT (R113), the fault registers and IR as before. -/
def CompletedNormally (s t : State) : Prop :=
  t.icount = s.icount + 1 ∧ t.runState = (if s.icount + 1 = s.limit then .wdogStopped else s.runState) ∧
    t.faultCause = s.faultCause ∧ t.faultInfo = s.faultInfo ∧ t.ir = s.ir

/-- The invariant of the machine: what R5, R22, R30 to R32, R36, R210, R212, R214, R242 and R247 say of every
state of a run. -/
structure State.Inv (s : State) : Prop where
  /-- R242 (a) -/
  memSizeRange : 1 ≤ s.memSize ∧ s.memSize ≤ Config.maxMemSize
  /-- R242 (d) -/
  progRange : s.prog.length ≤ Config.maxProgLen
  /-- R242 (f) -/
  limitRange : s.limit < Config.limitBound
  /-- the canonical form of DMEM -/
  memoryWf : s.dmem.wf = true
  /-- DMEM has the addresses 0 .. MEM_SIZE-1 only (R34) -/
  memoryBelow : s.dmem.below s.memSize = true
  /-- R22 -/
  daRange : s.AddressLegal s.da.toInt
  /-- R36 -/
  cursorRange : s.inCur ≤ s.input.length
  /-- R32 -/
  countBound : s.icount ≤ s.limit
  /-- R110: a RUNNING core is at its limit only when LIMIT = 0 -/
  runningBelow : s.runState = .running → s.icount < s.limit ∨ s.limit = 0
  /-- R212 -/
  wdogAtLimit : s.runState = .wdogStopped → s.icount = s.limit
  /-- R30 -/
  faultRecorded : s.runState = .faulted ↔ s.faultCause ≠ .none
  /-- R30: "0 and 0 otherwise" -/
  infoZero : s.faultCause = .none → s.faultInfo = 0#32
  /-- R247: in HALTED, PC is the index of the HLT -/
  haltedAtHlt : s.runState = .halted →
    0 ≤ s.pc.toInt ∧ ∃ w m a, s.prog[s.pc.toInt.toNat]? = some w ∧ decode w = .ok (.hlt m a)
  /-- R214: each instruction costs at least one tick -/
  tickLow : s.icount ≤ s.tick
  /-- R214: and at most six -/
  tickHigh : s.runState ≠ .faulted → s.tick ≤ 6 * s.icount
  /-- R31 -/
  tickBound : s.tick ≤ 6 * s.icount + 5

/-- Two states that differ at most in DA, DR, ALU and IR, the registers that are dead between instructions
(R38). -/
def SameButDead (s t : State) : Prop := t = { s with da := t.da, dr := t.dr, alu := t.alu, ir := t.ir }

/-- Two states that differ at most in TICK and OVF, which no rule and no instruction reads (R28, R246). -/
def SameButObservers (s t : State) : Prop := t = { s with tick := t.tick, ovf := t.ovf }

/-- Two outcomes that are the same stop, or next states related by `R`. -/
def RelatedOutcomes (R : State → State → Prop) : Host.Outcome State Fault Refusal → Host.Outcome State Fault Refusal → Prop
  | .next s, .next t => R s t
  | .fault f, .fault g => f = g
  | .refused f, .refused g => f = g
  | _, _ => False

/-- The end of a run (R247). -/
def State.Ended (s : State) : Prop := s.runState ≠ .running

end Sys2Proof.Machine
end

