-- ==== Sys2Proof/Certificates/Slice0/Obligations.lean ====
section
/-! DEFINITION. The statements for the provers, each `def Obligations.<Name> : Prop`; OBLIGATIONS.json gives each
its tier and its ground in spec/. Where a clause rests on a decision of 92_eei_decisions.md, the docstring names
it. -/

open Sys2Proof Sys2Proof.Machine

/-! ### Encoding -/

/-- Words written out from R83 to R85 and the tables of R93 and 95_test_vectors.md 2.1, one of each operand class
and mode and the illegal ones, decode as the spec says (the spec's D6, D7, D8, D9, D10). -/
def Obligations.WordsWrittenFromTheSpecDecode : Prop :=
  decode 0x04FFFFFFFF#40 = .ok (.ldImmediate (-1)) ∧ decode 0x1C00000003#40 = .ok (.stIndirect 3) ∧
  decode 0x280000000A#40 = .ok (.addDirect 10) ∧ decode 0x3480000000#40 = .ok (.subImmediate (-2147483648)) ∧
  decode 0x4400000003#40 = .ok (.divImmediate 3) ∧ decode 0x5800000001#40 = .ok (.cmpDirect 1) ∧
  decode 0x6C00000007#40 = .ok (.jmp .indirect 7) ∧ decode 0xB0FFFFFFFF#40 = .ok (.jge .absent (-1)) ∧
  decode 0xC000000000#40 = .ok (.inp .absent 0) ∧ decode 0xE000000000#40 = .ok (.outc .absent 0) ∧
  decode 0xFC12345678#40 = .ok (.hlt .indirect 0x12345678) ∧
  decode 0x0000000000#40 = .error .missingMode ∧ decode 0xF100000000#40 = .error .reservedBits

/-- Decoding the word of a well-formed instruction gives it back, every operand at every value (R92; the word is
the spec's D6, D7). -/
def Obligations.DecodeOfEncodeIsTheInstruction : Prop :=
  ∀ i : Instr, i.wf = true → decode (encode i) = .ok i

/-- The other direction of R92: the word of what a legal word decodes to is that word, and it is well-formed (D6). -/
def Obligations.EncodeOfDecodeIsTheWord : Prop :=
  ∀ (w : InstrWord) (i : Instr), decode w = .ok i → encode i = w ∧ i.wf = true

/-- A decoded instruction has the fields of its word, read as numbers: [39:36], [35:34] and the sign-extended
[31:0] (R83 to R86, R88; D6, D7). -/
def Obligations.DecodedFieldsAreTheWordsBits : Prop :=
  ∀ (w : InstrWord) (i : Instr), decode w = .ok i →
    (opcodeOf i).code.toNat = w.toNat / 2 ^ 36 ∧ i.toRecord.mode.code.toNat = w.toNat / 2 ^ 34 % 4 ∧
    i.toRecord.arg = (if w.toNat % 2 ^ 32 < 2 ^ 31 then ((w.toNat % 2 ^ 32 : Nat) : Int) else (w.toNat % 2 ^ 32 : Nat) - 2 ^ 32)

/-- A word is illegal exactly when its bits [33:32] are not 00 or its opcode is below 6 and its mode 0 (R87; D10). -/
def Obligations.IllegalWordsAreExactlyThese : Prop :=
  ∀ w : InstrWord, (∃ e, decode w = .error e) ↔
    (w.toNat / 2 ^ 32 % 4 ≠ 0 ∨ (w.toNat / 2 ^ 36 < 6 ∧ w.toNat / 2 ^ 34 % 4 = 0))

/-! ### The instruction cycle -/

/-- A step of a RUNNING core below its limit, with PC at a legal word, is `exec` of the instruction it decodes to,
at the state with IR latched and nothing else changed (R110 to R112; fetch and decode cost no tick by D29). -/
def Obligations.StepRunsTheDecodedInstruction : Prop :=
  ∀ (s : State) (w : InstrWord) (i : Instr), s.runState = .running → s.icount < s.limit → 0 ≤ s.pc.toInt →
    s.prog[s.pc.toInt.toNat]? = some w → decode w = .ok i → step s = exec i { s with ir := w }

/-- A RUNNING core at its limit stops with nothing fetched (R110; D20). -/
def Obligations.StepAtTheLimitOnlyStops : Prop :=
  ∀ s : State, s.runState = .running → s.limit ≤ s.icount → step s = .next { s with runState := .wdogStopped }

/-- A PC that does not index the program raises PcOutOfRange(PC) at fetch and changes nothing else (R111, R206,
R208; the fault is the spec's D11, its number D15). -/
def Obligations.PcOutsideTheProgramFaults : Prop :=
  ∀ s : State, s.runState = .running → s.icount < s.limit →
    (s.pc.toInt < 0 ∨ (s.prog.length : Int) ≤ s.pc.toInt) →
    step s = .next { s with runState := .faulted, faultCause := .pcOutOfRange, faultInfo := s.pc }

/-- An illegal word raises IllegalInstruction(0) at decode: IR holds the word, no tick, nothing else (R112, R205,
R208; D10). -/
def Obligations.IllegalWordFaults : Prop :=
  ∀ (s : State) (w : InstrWord) (e : Illegal), s.runState = .running → s.icount < s.limit → 0 ≤ s.pc.toInt →
    s.prog[s.pc.toInt.toNat]? = some w → decode w = .error e →
    step s = .next { s with ir := w, runState := .faulted, faultCause := .illegalInstruction, faultInfo := 0#32 }

/-- The core has a step exactly when RUN_STATE = RUNNING, and no step is refused (R29, R110, R210; that the host
sees the missing step as a fault is the model's choice, log 6). -/
def Obligations.StepExistsExactlyWhenRunning : Prop :=
  ∀ s : State, ((∃ t, step s = .next t) ↔ s.runState = .running) ∧ (∀ r, step s ≠ .refused r)

/-- Every instruction, in every state, answers a next state: no meaning stops (R110: the step is total). -/
def Obligations.EveryInstructionAnswersANextState : Prop :=
  ∀ (i : Instr) (s : State), ∃ t, exec i s = .next t

/-! ### Operand fetch and memory -/

/-- R115 to R117: what each mode leaves in DR and DA, its ticks, and the state it leaves when an address is
refused; every other field is unchanged. -/
def Obligations.OperandFetchByMode : Prop :=
  ∀ (s : State) (arg : Int), fitsWord arg = true →
    fetchImmediate arg s = .completed { s with dr := Word.ofInt arg, tick := s.tick + 1 } ∧
    (s.AddressLegal arg → fetchDirect arg s =
      .completed { s with da := Word.ofInt arg, dr := s.dmem.read arg.toNat, tick := s.tick + 2 }) ∧
    (s.AddressLegal arg → s.AddressLegal (s.cell arg) → fetchIndirect arg s =
      .completed { s with da := s.dmem.read arg.toNat, dr := s.dmem.read (s.cell arg).toNat, tick := s.tick + 4 }) ∧
    (¬ s.AddressLegal arg →
      fetchDirect arg s = .faulted { s with runState := .faulted, faultCause := .outOfMemoryAddress, faultInfo := Word.ofInt arg } ∧
      fetchIndirect arg s = .faulted { s with runState := .faulted, faultCause := .outOfMemoryAddress, faultInfo := Word.ofInt arg }) ∧
    (s.AddressLegal arg → ¬ s.AddressLegal (s.cell arg) → fetchIndirect arg s =
      .faulted { s with da := Word.ofInt arg, dr := s.dmem.read arg.toNat, tick := s.tick + 2, runState := .faulted,
                        faultCause := .outOfMemoryAddress, faultInfo := s.dmem.read arg.toNat })

/-- R65: a read gives the latest write or the reset value, a write changes no other word, the signals read_memory and
write_memory are these at address DA, and DA is legal once latched, so neither is called out of range. -/
def Obligations.MemReadGivesTheLatestWrite : Prop :=
  (∀ (m : Memory) (a b : Nat) (v : Word), m.wf = true → (m.write a v).read b = if b = a then v else m.read b) ∧
  (∀ (seg : List Word) (a : Nat), (Memory.ofSegment seg).read a = (seg[a]?).getD 0#32) ∧
  (∀ s : State, s.dmem.wf = true → 0 ≤ s.da.toInt → s.readMemory.toInt = s.cell s.da.toInt ∧
    (∃ m, s.writeMemory = { s with dmem := m }) ∧
    ∀ b, s.writeMemory.dmem.read b = if (b : Int) = s.da.toInt then s.acc else s.dmem.read b) ∧
  (∀ (v : Word) (s t : State), latchDataAddress v s = .completed t → t.da = v ∧ t.AddressLegal t.da.toInt)

/-- The canonical form of DMEM (the model's own, log 7 and log 8): every write and every data segment keeps it,
and two memories in it that read alike are the same data. -/
def Obligations.MemoryKeepsItsCanonicalForm : Prop :=
  (∀ (m : Memory) (a : Nat) (v : Word), m.wf = true → (m.write a v).wf = true) ∧
  (∀ (m : Memory) (a size : Nat) (v : Word), m.below size = true → a < size → (m.write a v).below size = true) ∧
  (∀ seg : List Word, (Memory.ofSegment seg).wf = true ∧ (Memory.ofSegment seg).below seg.length = true) ∧
  (∀ m n : Memory, m.wf = true → n.wf = true → (∀ a, m.read a = n.read a) → m = n)

/-! ### Load and store -/

/-- LD, every mode, completes when its addresses are legal: ACC, DR and ALU are the operand exactly, DA as operand
fetch leaves it, PC + 1, the ticks of R118, OVF untouched, and the frame (R140, R118, R119; D23). -/
def Obligations.LdLoadsTheOperand : Prop :=
  ∀ (i : Instr) (s : State), opcodeOf i = .ld → i.wf = true → OperandLegal s i →
    ∃ t, exec i s = .next t ∧ t.acc.toInt = operandOf s i ∧ t.dr.toInt = operandOf s i ∧ t.alu.toInt = operandOf s i ∧
      t.da.toInt = addressAfterFetch s i ∧ t.pc = s.pc + 1#32 ∧ t.tick = s.tick + tickTotal i ∧ t.ovf = s.ovf ∧
      CompletedNormally s t ∧ SameMemory s t ∧ SameInOut s t ∧ SameParameters s t

/-- ST, every mode, completes when its addresses and its operand are legal: the word at the address that is the
operand becomes ACC, every other word reads as before; DA and DR are the operand, and the frame (R141, R142; D23). -/
def Obligations.StStoresAccAtTheOperand : Prop :=
  ∀ (i : Instr) (s : State), opcodeOf i = .st → i.wf = true → s.dmem.wf = true → OperandLegal s i →
    s.AddressLegal (operandOf s i) →
    ∃ t, exec i s = .next t ∧
      (∀ a : Nat, t.dmem.read a = if (a : Int) = operandOf s i then s.acc else s.dmem.read a) ∧
      t.da.toInt = operandOf s i ∧ t.dr.toInt = operandOf s i ∧ t.acc = s.acc ∧ t.alu = s.alu ∧ t.ovf = s.ovf ∧
      t.pc = s.pc + 1#32 ∧ t.tick = s.tick + tickTotal i ∧ CompletedNormally s t ∧ SameInOut s t ∧ SameParameters s t

/-- ST whose operand is no legal address raises OutOfMemoryAddress(operand) after a whole operand fetch: only DR,
TICK and DA, as the fetch leaves them, and the fault registers change (R141, R208; D13, D14). -/
def Obligations.StOfAnIllegalAddressFaults : Prop :=
  ∀ (i : Instr) (s : State), opcodeOf i = .st → i.wf = true → OperandLegal s i → ¬ s.AddressLegal (operandOf s i) →
    ∃ t, exec i s = .next t ∧ t.dr.toInt = operandOf s i ∧ t.da.toInt = addressAfterFetch s i ∧
      t = { s with dr := t.dr, da := t.da, tick := s.tick + fetchTicks i.toRecord.mode, runState := .faulted,
                   faultCause := .outOfMemoryAddress, faultInfo := t.dr }

/-- Modes DIRECT and INDIRECT of all six memory-operand opcodes: a bad argument raises OutOfMemoryAddress(arg) with
nothing else changed, a bad pointer raises OutOfMemoryAddress(pointer) with DA, DR and two ticks of the first hop
(R116, R117, R202, R208; D13, D14). -/
def Obligations.IllegalOperandAddressFaults : Prop :=
  ∀ (i : Instr) (s : State), (opcodeOf i).isMemoryOperand = true → i.wf = true →
    ((i.toRecord.mode = .direct ∨ i.toRecord.mode = .indirect) → ¬ s.AddressLegal i.toRecord.arg →
      exec i s = .next { s with runState := .faulted, faultCause := .outOfMemoryAddress,
                                faultInfo := Word.ofInt i.toRecord.arg }) ∧
    (i.toRecord.mode = .indirect → s.AddressLegal i.toRecord.arg → ¬ s.AddressLegal (s.cell i.toRecord.arg) →
      exec i s = .next { s with da := Word.ofInt i.toRecord.arg, dr := s.dmem.read i.toRecord.arg.toNat,
                                tick := s.tick + 2, runState := .faulted, faultCause := .outOfMemoryAddress,
                                faultInfo := s.dmem.read i.toRecord.arg.toNat })

/-- R143: `LD a, DIRECT` then `ST a, IMMEDIATE` leaves DMEM exactly as it was; the pair leaves `M[a]` in ACC and ALU, `a`
in DA and DR, and moves PC, ICOUNT and TICK by 2, 2 and 6. -/
def Obligations.LoadThenStoreIsNoOpOnMemory : Prop :=
  ∀ (s : State) (a : Int), s.dmem.wf = true → fitsWord a = true → s.AddressLegal a →
    ∃ t u, exec (.ldDirect a) s = .next t ∧ exec (.stImmediate a) t = .next u ∧ u.dmem = s.dmem ∧
      t.acc.toInt = s.cell a ∧ u.acc = t.acc ∧ u.alu.toInt = s.cell a ∧ u.da.toInt = a ∧ u.dr.toInt = a ∧
      u.pc = s.pc + 2#32 ∧ u.icount = s.icount + 2 ∧ u.tick = s.tick + 6

/-! ### Arithmetic -/

/-- R154: ACC after LD, ADD, SUB, CMP and DIV is the one-shot flip of the exact value in the ALU latch, and the wrap
is applied nowhere else: no other instruction but IN writes ACC, and IN writes the character code as it is. -/
def Obligations.AccIsTheFlipWrapOfTheAlu : Prop :=
  ∀ (i : Instr) (s t : State), exec i s = .next t → t.icount = s.icount + 1 →
    (opcodeOf i ∈ [Opcode.ld, .add, .sub, .cmp, .div] →
      (t.alu.toInt > 2147483647 → t.acc.toInt = -2147483648) ∧
      (t.alu.toInt < -2147483648 → t.acc.toInt = 2147483647) ∧
      (-2147483648 ≤ t.alu.toInt → t.alu.toInt ≤ 2147483647 → t.acc.toInt = t.alu.toInt)) ∧
    (opcodeOf i ∉ [Opcode.ld, .add, .sub, .cmp, .div, .inp] → t.acc = s.acc) ∧
    (opcodeOf i = .inp → ∃ c, s.input[s.inCur]? = some c ∧ t.acc.toInt = c.val)

/-- ADD, every mode: ALU is the exact sum, ACC its wrap, OVF set when they differ, and the frame (R150, R154, R157;
OVF is the spec's D18, PC's group D23). -/
def Obligations.AddAddsTheOperand : Prop :=
  ∀ (i : Instr) (s : State), opcodeOf i = .add → i.wf = true → OperandLegal s i →
    ∃ t, exec i s = .next t ∧ t.alu.toInt = s.acc.toInt + operandOf s i ∧
      t.acc.toInt = wrap32 (s.acc.toInt + operandOf s i) ∧
      (t.ovf = true ↔ s.ovf = true ∨ t.acc.toInt ≠ s.acc.toInt + operandOf s i) ∧
      t.dr.toInt = operandOf s i ∧ t.da.toInt = addressAfterFetch s i ∧ t.pc = s.pc + 1#32 ∧
      t.tick = s.tick + tickTotal i ∧ CompletedNormally s t ∧ SameMemory s t ∧ SameInOut s t ∧ SameParameters s t

/-- SUB and CMP, every mode: ALU is the exact difference ACC - operand, ACC its wrap (CMP is destructive), OVF set
when they differ, and the frame (R151, R152, R154, R157; D18, D23). -/
def Obligations.SubAndCmpSubtractTheOperand : Prop :=
  ∀ (i : Instr) (s : State), opcodeOf i = .sub ∨ opcodeOf i = .cmp → i.wf = true → OperandLegal s i →
    ∃ t, exec i s = .next t ∧ t.alu.toInt = s.acc.toInt - operandOf s i ∧
      t.acc.toInt = wrap32 (s.acc.toInt - operandOf s i) ∧
      (t.ovf = true ↔ s.ovf = true ∨ t.acc.toInt ≠ s.acc.toInt - operandOf s i) ∧
      t.dr.toInt = operandOf s i ∧ t.da.toInt = addressAfterFetch s i ∧ t.pc = s.pc + 1#32 ∧
      t.tick = s.tick + tickTotal i ∧ CompletedNormally s t ∧ SameMemory s t ∧ SameInOut s t ∧ SameParameters s t

/-- DIV, every mode, completes when the operand is not 0: ACC and ALU are the remainder by REM, OVF untouched, and
the frame (R153, R156; REM is the spec's D3 and log 5, PC's group D23). -/
def Obligations.DivLeavesTheRemainder : Prop :=
  ∀ (i : Instr) (s : State), opcodeOf i = .div → i.wf = true → OperandLegal s i → operandOf s i ≠ 0 →
    ∃ t, exec i s = .next t ∧ t.acc.toInt = remainder s.rem s.acc.toInt (operandOf s i) ∧
      t.alu.toInt = t.acc.toInt ∧ t.ovf = s.ovf ∧
      t.dr.toInt = operandOf s i ∧ t.da.toInt = addressAfterFetch s i ∧ t.pc = s.pc + 1#32 ∧
      t.tick = s.tick + tickTotal i ∧ CompletedNormally s t ∧ SameMemory s t ∧ SameInOut s t ∧ SameParameters s t

/-- DIV of an operand 0 raises DivisionByZero(0) after a whole operand fetch; ACC, ALU, PC and the rest are unchanged
(R153, R203, R208; D13). -/
def Obligations.DivByZeroFaults : Prop :=
  ∀ (i : Instr) (s : State), opcodeOf i = .div → i.wf = true → OperandLegal s i → operandOf s i = 0 →
    ∃ t, exec i s = .next t ∧ t.da.toInt = addressAfterFetch s i ∧
      t = { s with dr := 0#32, da := t.da, tick := s.tick + fetchTicks i.toRecord.mode, runState := .faulted,
                   faultCause := .divisionByZero, faultInfo := 0#32 }

/-- R156: the floored remainder (the spec's D3) is the one integer `r` with `x = q*y + r` that is 0 or has the sign
of the divisor and is smaller than it; where `x >= 0` and `y > 0` all conventions agree; every convention's result
fits ACC. -/
def Obligations.RemainderLaw : Prop :=
  (∀ x y r : Int, y ≠ 0 → (remainder .floored x y = r ↔
    (∃ q, x = q * y + r) ∧ (0 < y → 0 ≤ r ∧ r < y) ∧ (y < 0 → y < r ∧ r ≤ 0))) ∧
  (∀ (c d : Config.Remainder) (x y : Int), 0 ≤ x → 0 < y → remainder c x y = remainder d x y) ∧
  (∀ (c : Config.Remainder) (x y : Word), y.toInt ≠ 0 →
    -2147483648 + 1 ≤ remainder c x.toInt y.toInt ∧ remainder c x.toInt y.toInt ≤ 2147483647)

/-! ### Control transfer -/

/-- R176: the branch-condition table of the six jumps, each completing in every state, with its consequences. The
mode is ignored. -/
def Obligations.BranchTableIsExact : Prop :=
  ∀ (m : Mode) (arg : Int) (s : State), fitsWord arg = true →
    ∃ jmp jz jnz jn jle jge : State,
      exec (.jmp m arg) s = .next jmp ∧ exec (.jz m arg) s = .next jz ∧ exec (.jnz m arg) s = .next jnz ∧
      exec (.jn m arg) s = .next jn ∧ exec (.jle m arg) s = .next jle ∧ exec (.jge m arg) s = .next jge ∧
      jmp.pc.toInt = arg ∧
      (s.acc.toInt < 0 → jz.pc = s.pc + 1#32 ∧ jnz.pc.toInt = arg ∧ jn.pc = s.pc + 1#32 ∧ jle.pc = s.pc + 1#32 ∧ jge.pc.toInt = arg) ∧
      (s.acc.toInt = 0 → jz.pc.toInt = arg ∧ jnz.pc = s.pc + 1#32 ∧ jn.pc.toInt = arg ∧ jle.pc = s.pc + 1#32 ∧ jge.pc = s.pc + 1#32) ∧
      (s.acc.toInt > 0 → jz.pc = s.pc + 1#32 ∧ jnz.pc.toInt = arg ∧ jn.pc.toInt = arg ∧ jle.pc.toInt = arg ∧ jge.pc = s.pc + 1#32)

/-- The frame of the jumps: they touch only PC and TICK, one tick taken or not, and complete (R178, R118, R113; the
tick of the conditional jumps is the spec's D4). -/
def Obligations.JumpsTouchOnlyPcAndTick : Prop :=
  ∀ (i : Instr) (s t : State), opcodeOf i ∈ [Opcode.jmp, .jz, .jnz, .jn, .jle, .jge] → exec i s = .next t →
    t = { s with pc := t.pc, tick := s.tick + 1, icount := s.icount + 1, runState := t.runState } ∧
    CompletedNormally s t ∧ (t.pc = Word.ofInt i.toRecord.arg ∨ t.pc = s.pc + 1#32)

/-- After `CMP b` whose difference does not overflow, JLE branches when a > b, JGE when a < b, JN when a >= b, JZ
when a = b, JNZ when a != b (R176, R152). -/
def Obligations.CompareThenBranch : Prop :=
  ∀ (i : Instr) (s t : State), opcodeOf i = .cmp → i.wf = true → OperandLegal s i → exec i s = .next t →
    -2147483648 ≤ s.acc.toInt - operandOf s i → s.acc.toInt - operandOf s i ≤ 2147483647 →
    (branchLE t.acc = true ↔ s.acc.toInt > operandOf s i) ∧ (branchGE t.acc = true ↔ s.acc.toInt < operandOf s i) ∧
    (branchN t.acc = true ↔ s.acc.toInt ≥ operandOf s i) ∧ (branchZ t.acc = true ↔ s.acc.toInt = operandOf s i) ∧
    (branchNZ t.acc = true ↔ s.acc.toInt ≠ operandOf s i)

/-- R27: Z and N are predicates over ACC, never both true; after reset Z is true and N false. -/
def Obligations.FlagsArePredicatesOverAcc : Prop :=
  (∀ acc : Word, (zeroFlag acc = true ↔ acc.toInt = 0) ∧ (negativeFlag acc = true ↔ acc.toInt < 0) ∧
    ¬ (zeroFlag acc = true ∧ negativeFlag acc = true)) ∧
  zeroFlag State.reset.acc = true ∧ negativeFlag State.reset.acc = false

/-! ### Input, output, halt -/

/-- IN with input left: ACC is the next character's code with no wrap, the cursor and PC advance, one tick, and the
frame (R190; the range of a code is the spec's D30, exhaustion its D16). -/
def Obligations.InReadsTheNextCharacter : Prop :=
  ∀ (m : Mode) (arg : Int) (s : State) (c : CharCode), s.input[s.inCur]? = some c →
    ∃ t, exec (.inp m arg) s = .next t ∧ t.acc.toInt = c.val ∧ t.inCur = s.inCur + 1 ∧ t.pc = s.pc + 1#32 ∧
      t.tick = s.tick + 1 ∧ t.ovf = s.ovf ∧ negativeFlag t.acc = false ∧ t.output = s.output ∧
      CompletedNormally s t ∧ SameDataPath s t ∧ SameMemory s t ∧ SameParameters s t

/-- IN with every element read raises EndOfInput(0) and changes nothing else (R190, R204, R208; D16). -/
def Obligations.InPastTheEndFaults : Prop :=
  ∀ (m : Mode) (arg : Int) (s : State), s.input.length ≤ s.inCur →
    exec (.inp m arg) s = .next { s with runState := .faulted, faultCause := .endOfInput, faultInfo := 0#32 }

/-- OUT and OUTC with ACC a character's code append that code, PC + 1, one tick, and the frame (R191, R192). -/
def Obligations.OutAppendsTheCharacter : Prop :=
  ∀ (i : Instr) (s : State), opcodeOf i = .out ∨ opcodeOf i = .outc → 0 ≤ s.acc.toInt → s.acc.toInt ≤ 1114111 →
    ∃ t c, exec i s = .next t ∧ ((c : CharCode).val : Int) = s.acc.toInt ∧ t.output = s.output ++ [c] ∧
      t.pc = s.pc + 1#32 ∧ t.tick = s.tick + 1 ∧ t.acc = s.acc ∧ t.ovf = s.ovf ∧ t.inCur = s.inCur ∧
      CompletedNormally s t ∧ SameDataPath s t ∧ SameMemory s t ∧ SameParameters s t

/-- OUT and OUTC with ACC no character's code raise OutputRange(ACC) and change nothing else (R191, R207, R208; the
fault is the spec's D17). -/
def Obligations.OutOfNoCharacterFaults : Prop :=
  ∀ (i : Instr) (s : State), opcodeOf i = .out ∨ opcodeOf i = .outc → (s.acc.toInt < 0 ∨ 1114111 < s.acc.toInt) →
    exec i s = .next { s with runState := .faulted, faultCause := .outputRange, faultInfo := s.acc }

/-- HLT: one tick, one instruction counted, HALTED even at the limit, PC and everything else unchanged (R193, R113;
the spec's D5, D20). -/
def Obligations.HltHalts : Prop :=
  ∀ (m : Mode) (arg : Int) (s : State),
    exec (.hlt m arg) s = .next { s with tick := s.tick + 1, icount := s.icount + 1, runState := .halted }

/-! ### Rules of the whole machine -/

/-- Every instruction that does not fault counts once and costs its total of R118; HLT ends HALTED, any other ends
WDOG_STOPPED exactly when ICOUNT reaches LIMIT (R113, R118, R212; D4, D5, D20, D21). -/
def Obligations.CompletionCountsAndTicks : Prop :=
  ∀ (i : Instr) (s t : State), s.runState = .running → exec i s = .next t → t.runState ≠ .faulted →
    t.icount = s.icount + 1 ∧ t.tick = s.tick + tickTotal i ∧ 1 ≤ tickTotal i ∧ tickTotal i ≤ 6 ∧
    t.runState = (if opcodeOf i = .hlt then .halted else if t.icount = s.limit then .wdogStopped else .running) ∧
    t.faultCause = s.faultCause ∧ t.faultInfo = s.faultInfo

/-- Faults are precise: in the FAULTED state an instruction leaves, PC, ACC, ALU, DMEM, OUTPUT, IN_CUR, OVF, ICOUNT
and IR are as before it, a cause is recorded, and only DA, DR and at most four ticks of operand fetch differ (R208;
the spec's D13, D14, D21). -/
def Obligations.FaultsArePrecise : Prop :=
  ∀ (i : Instr) (s t : State), s.runState = .running → exec i s = .next t → t.runState = .faulted →
    t = { s with da := t.da, dr := t.dr, tick := t.tick, runState := .faulted, faultCause := t.faultCause,
                 faultInfo := t.faultInfo } ∧
    t.faultCause ≠ .none ∧ s.tick ≤ t.tick ∧ t.tick ≤ s.tick + 4

/-- Which instruction raises which cause (R201, R209; D15): 1 the memory-operand opcodes, 2 DIV alone, 3 IN alone,
6 OUT and OUTC alone, 4 and 5 none. -/
def Obligations.CausesBelongToTheirInstructions : Prop :=
  ∀ (i : Instr) (s t : State), s.runState = .running → exec i s = .next t → t.runState = .faulted →
    (t.faultCause = .outOfMemoryAddress ∧ (opcodeOf i).isMemoryOperand = true) ∨
    (t.faultCause = .divisionByZero ∧ opcodeOf i = .div ∧ t.faultInfo = 0#32 ∧ t.dr = 0#32) ∨
    (t.faultCause = .endOfInput ∧ opcodeOf i = .inp ∧ t.faultInfo = 0#32) ∨
    (t.faultCause = .outputRange ∧ (opcodeOf i = .out ∨ opcodeOf i = .outc) ∧ t.faultInfo = s.acc)

/-- Only ST writes DMEM, only IN moves the cursor, only OUT and OUTC write OUTPUT, and only by appending; no
instruction writes IR or a parameter (R26, R34 to R37, R5). -/
def Obligations.OnlyTheirInstructionsWriteMemoryAndInOut : Prop :=
  ∀ (i : Instr) (s t : State), exec i s = .next t →
    (opcodeOf i ≠ .st → t.dmem = s.dmem) ∧ (opcodeOf i ≠ .inp → t.inCur = s.inCur) ∧
    (opcodeOf i ≠ .out → opcodeOf i ≠ .outc → t.output = s.output) ∧
    (t.output = s.output ∨ ∃ c, t.output = s.output ++ [c]) ∧ t.ir = s.ir ∧ SameParameters s t

/-- OVF is sticky, and only an ADD, SUB or CMP whose exact result the wrap changes sets it (R28, R157; the flag is
the spec's D18). -/
def Obligations.OverflowIsStickyAndOnlyArithmeticSetsIt : Prop :=
  ∀ (i : Instr) (s t : State), exec i s = .next t →
    (s.ovf = true → t.ovf = true) ∧
    (s.ovf = false → t.ovf = true →
      opcodeOf i ∈ [Opcode.add, .sub, .cmp] ∧ (t.alu.toInt > 2147483647 ∨ t.alu.toInt < -2147483648))

/-- R72: a store never reaches instruction fetch; throughout a run, of any length from any state, the program is
the one it began with. -/
def Obligations.ProgramNeverChanges : Prop :=
  ∀ (n : Nat) (s t : State), Sys2Proof.core.run n s = .next t → ∀ p : Nat, t.prog[p]? = s.prog[p]?

/-- Every step moves the counters, the cursor and the output only forward: TICK by 0 to 6, ICOUNT by 0 or 1, IN_CUR
by 0 or 1, OUTPUT keeps what it holds (R31, R32, R36, R37, R214). -/
def Obligations.CountersAndSequencesOnlyGrow : Prop :=
  ∀ s t : State, step s = .next t →
    s.tick ≤ t.tick ∧ t.tick ≤ s.tick + 6 ∧ s.icount ≤ t.icount ∧ t.icount ≤ s.icount + 1 ∧
    s.inCur ≤ t.inCur ∧ t.inCur ≤ s.inCur + 1 ∧ s.output <+: t.output

/-- The invariant holds at reset (the LIMIT, INPUT and program of `State.reset` are the model's, log 3 and log 4). -/
def Obligations.ResetMeetsTheInvariant : Prop := State.reset.Inv

/-- Every state that a load gives meets the invariant (R240, R242; the bounds are the spec's D1, D11, D22, D26). -/
def Obligations.EveryLoadMeetsTheInvariant : Prop :=
  ∀ (p : LoadParams) (s : State), load p = .ok s → s.Inv

/-- Every step keeps the invariant: DA in range, DMEM canonical and within MEM_SIZE, ICOUNT at most LIMIT, TICK
between ICOUNT and 6 ICOUNT (+5 in FAULTED), a fault recorded exactly in FAULTED, HALTED at a HLT (R22, R30 to R36,
R212, R214, R247). -/
def Obligations.EveryStepKeepsTheInvariant : Prop :=
  ∀ s t : State, s.Inv → step s = .next t → t.Inv

/-- The reset table of R39 for the parameters of a load (the rows of D12, D15, D18, D25 are the spec's decisions). -/
def Obligations.LoadGivesTheResetTable : Prop :=
  ∀ (p : LoadParams) (s : State), load p = .ok s →
    s.pc = 0#32 ∧ (∀ a : Nat, s.cell a = (p.dataSeg[a]?).getD 0) ∧ s.output = [] ∧ s.inCur = 0 ∧ s.tick = 0 ∧
    s.icount = 0 ∧ s.runState = .running ∧ s.acc = 0#32 ∧ s.da = 0#32 ∧ s.dr = 0#32 ∧ s.alu = 0#33 ∧ s.ir = 0#40 ∧
    s.ovf = false ∧ s.faultCause = .none ∧ s.faultInfo = 0#32 ∧ s.limit = p.limit ∧ s.memSize = p.memSize ∧
    s.input = p.input ∧ s.prog = p.prog.map ProgEntry.toWord

/-- A load is refused exactly when it breaks R242 (a), (b), (c), (d) or (f) (R219; the bounds are the spec's D26). -/
def Obligations.LoadIsRefusedExactlyOutsideTheRequirements : Prop :=
  ∀ p : LoadParams, (∃ s, load p = .ok s) ↔
    (1 ≤ p.memSize ∧ p.memSize ≤ 2 ^ 31) ∧
    (p.dataSeg.length ≤ p.memSize ∧ ∀ v ∈ p.dataSeg, -2147483648 ≤ v ∧ v ≤ 2147483647) ∧
    (∀ r, ProgEntry.record r ∈ p.prog → -2147483648 ≤ r.arg ∧ r.arg ≤ 2147483647) ∧
    p.prog.length ≤ 2 ^ 31 - 1 ∧ p.limit < 2 ^ 32

/-- DA, DR, ALU and IR carry nothing from one instruction to the next: runs of any length from states that differ
only there end the same way, differing only there (R38; in a FAULTED end too). -/
def Obligations.DeadRegistersCarryNothing : Prop :=
  ∀ (n : Nat) (s t : State), SameButDead s t →
    RelatedOutcomes SameButDead (Sys2Proof.core.run n s) (Sys2Proof.core.run n t)

/-- Nothing reads TICK or OVF: runs of any length from states that differ only there end the same way, differing
only there (R28, R31, R246). -/
def Obligations.NothingReadsTickOrOverflow : Prop :=
  ∀ (n : Nat) (s t : State), SameButObservers s t →
    RelatedOutcomes SameButObservers (Sys2Proof.core.run n s) (Sys2Proof.core.run n t)

/-- Every run ends: from a RUNNING state below its limit a terminal state is reached after at most LIMIT - ICOUNT
steps (R212, R243, R247). -/
def Obligations.WatchdogEndsEveryRun : Prop :=
  ∀ s : State, s.runState = .running → s.icount < s.limit →
    ∃ n t, n ≤ s.limit - s.icount ∧ Sys2Proof.core.run n s = .next t ∧ t.Ended
end

