-- ==== Sys2Proof/Laws/Word.lean ====
section
/-! SUPPORT. Integers in and out of the registers. -/

namespace Sys2Proof

theorem fitsWord_iff (v : Int) : fitsWord v = true ↔ Config.min32 ≤ v ∧ v ≤ Config.max32 := by
  simp [fitsWord]

theorem Word.min_le_toInt (w : Word) : -2147483648 ≤ w.toInt := by
  have := BitVec.le_two_mul_toInt (x := w)
  omega

theorem Word.toInt_le_max (w : Word) : w.toInt ≤ 2147483647 := by
  have := BitVec.two_mul_toInt_lt (x := w)
  omega

theorem Word.fitsWord_toInt (w : Word) : fitsWord w.toInt = true :=
  (fitsWord_iff _).2 ⟨Word.min_le_toInt w, Word.toInt_le_max w⟩

/-- A value in range survives a register. -/
theorem Word.toInt_ofInt {v : Int} (h : fitsWord v = true) : (Word.ofInt v).toInt = v := by
  obtain ⟨lo, hi⟩ := (fitsWord_iff v).1 h
  simp only [Config.min32, Config.max32] at lo hi
  rw [Word.ofInt, BitVec.toInt_ofInt, Int.bmod_eq_of_le] <;> omega

theorem Word.ofInt_toInt (w : Word) : Word.ofInt w.toInt = w := BitVec.ofInt_toInt

/-- A value in [-(2^32), 2^32 - 1] survives the ALU latch. -/
theorem AluWord.toInt_ofInt {v : Int} (lo : -4294967296 ≤ v) (hi : v ≤ 4294967295) : (AluWord.ofInt v).toInt = v := by
  rw [AluWord.ofInt, BitVec.toInt_ofInt, Int.bmod_eq_of_le] <;> omega

/-- The latch holds a register's value, and the sum and the difference of two, exactly (R155). -/
theorem AluWord.toInt_pass (x : Word) : (AluWord.ofInt x.toInt).toInt = x.toInt := by
  have := Word.min_le_toInt x
  have := Word.toInt_le_max x
  exact AluWord.toInt_ofInt (by omega) (by omega)

theorem AluWord.toInt_sum (x y : Word) : (AluWord.ofInt (x.toInt + y.toInt)).toInt = x.toInt + y.toInt := by
  have := Word.min_le_toInt x
  have := Word.toInt_le_max x
  have := Word.min_le_toInt y
  have := Word.toInt_le_max y
  exact AluWord.toInt_ofInt (by omega) (by omega)

theorem AluWord.toInt_difference (x y : Word) : (AluWord.ofInt (x.toInt - y.toInt)).toInt = x.toInt - y.toInt := by
  have := Word.min_le_toInt x
  have := Word.toInt_le_max x
  have := Word.min_le_toInt y
  have := Word.toInt_le_max y
  exact AluWord.toInt_ofInt (by omega) (by omega)

/-- A register whose signed value is not negative has that value as a number. -/
theorem Word.toNat_eq_of_nonneg {w : Word} (h : 0 ≤ w.toInt) : w.toNat = w.toInt.toNat := by
  rw [BitVec.toInt_eq_toNat_cond] at *
  split at h <;> split <;> omega

theorem Word.fitsWord_charCode (c : CharCode) : fitsWord (c.val : Int) = true := by
  rw [fitsWord_iff]
  have := c.isLt
  simp only [Config.min32, Config.max32]
  omega

end Sys2Proof
end

