-- ==== Sys2Proof/Laws/Decode.lean ====
section
/-! SUPPORT. The fields of a packed word, and the numbers of opcodes and modes. -/

namespace Sys2Proof

theorem toNat_append_eq {m n : Nat} (x : BitVec m) (y : BitVec n) :
    (x ++ y).toNat = x.toNat * 2 ^ n + y.toNat := by
  rw [BitVec.toNat_append, ← Nat.shiftLeft_add_eq_or_of_lt y.isLt, Nat.shiftLeft_eq]

/-- The number of a packed word (R83). -/
theorem packWord_toNat (o : BitVec 4) (m r : BitVec 2) (a : Word) :
    (packWord o m r a).toNat = o.toNat * 2 ^ 36 + m.toNat * 2 ^ 34 + r.toNat * 2 ^ 32 + a.toNat := by
  have h : (packWord o m r a).toNat = (o ++ m ++ r ++ a).toNat := rfl
  rw [h, toNat_append_eq, toNat_append_eq, toNat_append_eq]
  omega

/-- Each field of a word as a number (R8, R83). -/
theorem opcodeField_toNat (w : InstrWord) : (InstrWord.opcodeField w).toNat = w.toNat / 2 ^ 36 := by
  rw [InstrWord.opcodeField, BitVec.extractLsb'_toNat, Nat.shiftRight_eq_div_pow]
  omega

theorem modeField_toNat (w : InstrWord) : (InstrWord.modeField w).toNat = w.toNat / 2 ^ 34 % 4 := by
  rw [InstrWord.modeField, BitVec.extractLsb'_toNat, Nat.shiftRight_eq_div_pow]

theorem rsvField_toNat (w : InstrWord) : (InstrWord.rsvField w).toNat = w.toNat / 2 ^ 32 % 4 := by
  rw [InstrWord.rsvField, BitVec.extractLsb'_toNat, Nat.shiftRight_eq_div_pow]

theorem argField_toNat (w : InstrWord) : (InstrWord.argField w).toNat = w.toNat % 2 ^ 32 := by
  rw [InstrWord.argField, BitVec.extractLsb'_toNat, Nat.shiftRight_eq_div_pow]
  omega

theorem opcodeField_packWord (o : BitVec 4) (m r : BitVec 2) (a : Word) :
    InstrWord.opcodeField (packWord o m r a) = o := by
  apply BitVec.eq_of_toNat_eq
  rw [opcodeField_toNat, packWord_toNat]
  omega

theorem modeField_packWord (o : BitVec 4) (m r : BitVec 2) (a : Word) :
    InstrWord.modeField (packWord o m r a) = m := by
  apply BitVec.eq_of_toNat_eq
  rw [modeField_toNat, packWord_toNat]
  omega

theorem rsvField_packWord (o : BitVec 4) (m r : BitVec 2) (a : Word) :
    InstrWord.rsvField (packWord o m r a) = r := by
  apply BitVec.eq_of_toNat_eq
  rw [rsvField_toNat, packWord_toNat]
  omega

theorem argField_packWord (o : BitVec 4) (m r : BitVec 2) (a : Word) :
    InstrWord.argField (packWord o m r a) = a := by
  apply BitVec.eq_of_toNat_eq
  rw [argField_toNat, packWord_toNat]
  omega

/-- A word is its four fields. -/
theorem packWord_fields (w : InstrWord) :
    packWord (InstrWord.opcodeField w) (InstrWord.modeField w) (InstrWord.rsvField w) (InstrWord.argField w) = w := by
  apply BitVec.eq_of_toNat_eq
  rw [packWord_toNat, opcodeField_toNat, modeField_toNat, rsvField_toNat, argField_toNat]
  omega

theorem Opcode.ofCode_code (o : Opcode) : Opcode.ofCode o.code = o := by cases o <;> rfl

theorem Opcode.code_ofCode (c : BitVec 4) : (Opcode.ofCode c).code = c := by revert c; decide

theorem Mode.ofCode_code (m : Mode) : Mode.ofCode m.code = m := by cases m <;> rfl

theorem Mode.code_ofCode (c : BitVec 2) : (Mode.ofCode c).code = c := by revert c; decide

/-- The fields of the word of a record (R92). -/
theorem Record.encode_fields (r : Record) :
    InstrWord.opcodeField r.encode = r.opcode.code ∧ InstrWord.modeField r.encode = r.mode.code ∧
    InstrWord.rsvField r.encode = 0#2 ∧ InstrWord.argField r.encode = Word.ofInt r.arg :=
  ⟨opcodeField_packWord .., modeField_packWord .., rsvField_packWord .., argField_packWord ..⟩

/-- A record is the record of the instruction it stands for. -/
theorem Record.toInstr_ok {r : Record} {i : Instr} (h : r.toInstr = .ok i) : i.toRecord = r := by
  obtain ⟨o, m, a⟩ := r
  cases o <;> cases m <;> simp only [Record.toInstr, Except.ok.injEq, reduceCtorEq] at h <;> (subst h; rfl)

theorem Instr.toInstr_toRecord (i : Instr) : i.toRecord.toInstr = .ok i := by
  cases i <;> rfl

/-- A record stands for no instruction exactly when it lacks the mode it needs (R87 b). -/
theorem Record.toInstr_error_iff (r : Record) : r.toInstr = .error .missingMode ↔ r.hasNeededMode = false := by
  obtain ⟨o, m, a⟩ := r
  cases o <;> cases m <;> simp [Record.toInstr, Record.hasNeededMode, Opcode.isMemoryOperand]

end Sys2Proof
end

