-- ==== Sys2Proof/Laws/State.lean ====
section
/-! SUPPORT. One lemma per field per update of the state, each true by its definition. -/

namespace Sys2Proof.Machine

section
variable (c : FaultCause) (v : Word) (s : State)
@[simp] theorem State.raiseFault_acc : (s.raiseFault c v).acc = s.acc := rfl
@[simp] theorem State.raiseFault_da : (s.raiseFault c v).da = s.da := rfl
@[simp] theorem State.raiseFault_dr : (s.raiseFault c v).dr = s.dr := rfl
@[simp] theorem State.raiseFault_alu : (s.raiseFault c v).alu = s.alu := rfl
@[simp] theorem State.raiseFault_dmem : (s.raiseFault c v).dmem = s.dmem := rfl
@[simp] theorem State.raiseFault_inCur : (s.raiseFault c v).inCur = s.inCur := rfl
@[simp] theorem State.raiseFault_output : (s.raiseFault c v).output = s.output := rfl
@[simp] theorem State.raiseFault_pc : (s.raiseFault c v).pc = s.pc := rfl
@[simp] theorem State.raiseFault_ir : (s.raiseFault c v).ir = s.ir := rfl
@[simp] theorem State.raiseFault_tick : (s.raiseFault c v).tick = s.tick := rfl
@[simp] theorem State.raiseFault_runState : (s.raiseFault c v).runState = .faulted := rfl
@[simp] theorem State.raiseFault_faultCause : (s.raiseFault c v).faultCause = c := rfl
@[simp] theorem State.raiseFault_faultInfo : (s.raiseFault c v).faultInfo = v := rfl
@[simp] theorem State.raiseFault_ovf : (s.raiseFault c v).ovf = s.ovf := rfl
@[simp] theorem State.raiseFault_icount : (s.raiseFault c v).icount = s.icount := rfl
@[simp] theorem State.raiseFault_prog : (s.raiseFault c v).prog = s.prog := rfl
@[simp] theorem State.raiseFault_input : (s.raiseFault c v).input = s.input := rfl
@[simp] theorem State.raiseFault_memSize : (s.raiseFault c v).memSize = s.memSize := rfl
@[simp] theorem State.raiseFault_limit : (s.raiseFault c v).limit = s.limit := rfl
@[simp] theorem State.raiseFault_rem : (s.raiseFault c v).rem = s.rem := rfl
end

section
variable (s : State)
@[simp] theorem State.countTick_acc : (s.countTick).acc = s.acc := rfl
@[simp] theorem State.countTick_da : (s.countTick).da = s.da := rfl
@[simp] theorem State.countTick_dr : (s.countTick).dr = s.dr := rfl
@[simp] theorem State.countTick_alu : (s.countTick).alu = s.alu := rfl
@[simp] theorem State.countTick_dmem : (s.countTick).dmem = s.dmem := rfl
@[simp] theorem State.countTick_inCur : (s.countTick).inCur = s.inCur := rfl
@[simp] theorem State.countTick_output : (s.countTick).output = s.output := rfl
@[simp] theorem State.countTick_pc : (s.countTick).pc = s.pc := rfl
@[simp] theorem State.countTick_ir : (s.countTick).ir = s.ir := rfl
@[simp] theorem State.countTick_tick : (s.countTick).tick = s.tick + 1 := rfl
@[simp] theorem State.countTick_runState : (s.countTick).runState = s.runState := rfl
@[simp] theorem State.countTick_faultCause : (s.countTick).faultCause = s.faultCause := rfl
@[simp] theorem State.countTick_faultInfo : (s.countTick).faultInfo = s.faultInfo := rfl
@[simp] theorem State.countTick_ovf : (s.countTick).ovf = s.ovf := rfl
@[simp] theorem State.countTick_icount : (s.countTick).icount = s.icount := rfl
@[simp] theorem State.countTick_prog : (s.countTick).prog = s.prog := rfl
@[simp] theorem State.countTick_input : (s.countTick).input = s.input := rfl
@[simp] theorem State.countTick_memSize : (s.countTick).memSize = s.memSize := rfl
@[simp] theorem State.countTick_limit : (s.countTick).limit = s.limit := rfl
@[simp] theorem State.countTick_rem : (s.countTick).rem = s.rem := rfl
end

section
variable (s : State)
@[simp] theorem State.pcNext_acc : (s.pcNext).acc = s.acc := rfl
@[simp] theorem State.pcNext_da : (s.pcNext).da = s.da := rfl
@[simp] theorem State.pcNext_dr : (s.pcNext).dr = s.dr := rfl
@[simp] theorem State.pcNext_alu : (s.pcNext).alu = s.alu := rfl
@[simp] theorem State.pcNext_dmem : (s.pcNext).dmem = s.dmem := rfl
@[simp] theorem State.pcNext_inCur : (s.pcNext).inCur = s.inCur := rfl
@[simp] theorem State.pcNext_output : (s.pcNext).output = s.output := rfl
@[simp] theorem State.pcNext_pc : (s.pcNext).pc = s.pc + 1#32 := rfl
@[simp] theorem State.pcNext_ir : (s.pcNext).ir = s.ir := rfl
@[simp] theorem State.pcNext_tick : (s.pcNext).tick = s.tick := rfl
@[simp] theorem State.pcNext_runState : (s.pcNext).runState = s.runState := rfl
@[simp] theorem State.pcNext_faultCause : (s.pcNext).faultCause = s.faultCause := rfl
@[simp] theorem State.pcNext_faultInfo : (s.pcNext).faultInfo = s.faultInfo := rfl
@[simp] theorem State.pcNext_ovf : (s.pcNext).ovf = s.ovf := rfl
@[simp] theorem State.pcNext_icount : (s.pcNext).icount = s.icount := rfl
@[simp] theorem State.pcNext_prog : (s.pcNext).prog = s.prog := rfl
@[simp] theorem State.pcNext_input : (s.pcNext).input = s.input := rfl
@[simp] theorem State.pcNext_memSize : (s.pcNext).memSize = s.memSize := rfl
@[simp] theorem State.pcNext_limit : (s.pcNext).limit = s.limit := rfl
@[simp] theorem State.pcNext_rem : (s.pcNext).rem = s.rem := rfl
end

section
variable (v : Word) (s : State)
@[simp] theorem State.pcJump_acc : (s.pcJump v).acc = s.acc := rfl
@[simp] theorem State.pcJump_da : (s.pcJump v).da = s.da := rfl
@[simp] theorem State.pcJump_dr : (s.pcJump v).dr = s.dr := rfl
@[simp] theorem State.pcJump_alu : (s.pcJump v).alu = s.alu := rfl
@[simp] theorem State.pcJump_dmem : (s.pcJump v).dmem = s.dmem := rfl
@[simp] theorem State.pcJump_inCur : (s.pcJump v).inCur = s.inCur := rfl
@[simp] theorem State.pcJump_output : (s.pcJump v).output = s.output := rfl
@[simp] theorem State.pcJump_pc : (s.pcJump v).pc = v := rfl
@[simp] theorem State.pcJump_ir : (s.pcJump v).ir = s.ir := rfl
@[simp] theorem State.pcJump_tick : (s.pcJump v).tick = s.tick := rfl
@[simp] theorem State.pcJump_runState : (s.pcJump v).runState = s.runState := rfl
@[simp] theorem State.pcJump_faultCause : (s.pcJump v).faultCause = s.faultCause := rfl
@[simp] theorem State.pcJump_faultInfo : (s.pcJump v).faultInfo = s.faultInfo := rfl
@[simp] theorem State.pcJump_ovf : (s.pcJump v).ovf = s.ovf := rfl
@[simp] theorem State.pcJump_icount : (s.pcJump v).icount = s.icount := rfl
@[simp] theorem State.pcJump_prog : (s.pcJump v).prog = s.prog := rfl
@[simp] theorem State.pcJump_input : (s.pcJump v).input = s.input := rfl
@[simp] theorem State.pcJump_memSize : (s.pcJump v).memSize = s.memSize := rfl
@[simp] theorem State.pcJump_limit : (s.pcJump v).limit = s.limit := rfl
@[simp] theorem State.pcJump_rem : (s.pcJump v).rem = s.rem := rfl
end

section
variable (v : Word) (s : State)
@[simp] theorem State.latchDataRegister_acc : (s.latchDataRegister v).acc = s.acc := rfl
@[simp] theorem State.latchDataRegister_da : (s.latchDataRegister v).da = s.da := rfl
@[simp] theorem State.latchDataRegister_dr : (s.latchDataRegister v).dr = v := rfl
@[simp] theorem State.latchDataRegister_alu : (s.latchDataRegister v).alu = s.alu := rfl
@[simp] theorem State.latchDataRegister_dmem : (s.latchDataRegister v).dmem = s.dmem := rfl
@[simp] theorem State.latchDataRegister_inCur : (s.latchDataRegister v).inCur = s.inCur := rfl
@[simp] theorem State.latchDataRegister_output : (s.latchDataRegister v).output = s.output := rfl
@[simp] theorem State.latchDataRegister_pc : (s.latchDataRegister v).pc = s.pc := rfl
@[simp] theorem State.latchDataRegister_ir : (s.latchDataRegister v).ir = s.ir := rfl
@[simp] theorem State.latchDataRegister_tick : (s.latchDataRegister v).tick = s.tick := rfl
@[simp] theorem State.latchDataRegister_runState : (s.latchDataRegister v).runState = s.runState := rfl
@[simp] theorem State.latchDataRegister_faultCause : (s.latchDataRegister v).faultCause = s.faultCause := rfl
@[simp] theorem State.latchDataRegister_faultInfo : (s.latchDataRegister v).faultInfo = s.faultInfo := rfl
@[simp] theorem State.latchDataRegister_ovf : (s.latchDataRegister v).ovf = s.ovf := rfl
@[simp] theorem State.latchDataRegister_icount : (s.latchDataRegister v).icount = s.icount := rfl
@[simp] theorem State.latchDataRegister_prog : (s.latchDataRegister v).prog = s.prog := rfl
@[simp] theorem State.latchDataRegister_input : (s.latchDataRegister v).input = s.input := rfl
@[simp] theorem State.latchDataRegister_memSize : (s.latchDataRegister v).memSize = s.memSize := rfl
@[simp] theorem State.latchDataRegister_limit : (s.latchDataRegister v).limit = s.limit := rfl
@[simp] theorem State.latchDataRegister_rem : (s.latchDataRegister v).rem = s.rem := rfl
end

section
variable (s : State)
@[simp] theorem State.writeMemory_acc : (s.writeMemory).acc = s.acc := rfl
@[simp] theorem State.writeMemory_da : (s.writeMemory).da = s.da := rfl
@[simp] theorem State.writeMemory_dr : (s.writeMemory).dr = s.dr := rfl
@[simp] theorem State.writeMemory_alu : (s.writeMemory).alu = s.alu := rfl
@[simp] theorem State.writeMemory_dmem : (s.writeMemory).dmem = s.dmem.write s.da.toNat s.acc := rfl
@[simp] theorem State.writeMemory_inCur : (s.writeMemory).inCur = s.inCur := rfl
@[simp] theorem State.writeMemory_output : (s.writeMemory).output = s.output := rfl
@[simp] theorem State.writeMemory_pc : (s.writeMemory).pc = s.pc := rfl
@[simp] theorem State.writeMemory_ir : (s.writeMemory).ir = s.ir := rfl
@[simp] theorem State.writeMemory_tick : (s.writeMemory).tick = s.tick := rfl
@[simp] theorem State.writeMemory_runState : (s.writeMemory).runState = s.runState := rfl
@[simp] theorem State.writeMemory_faultCause : (s.writeMemory).faultCause = s.faultCause := rfl
@[simp] theorem State.writeMemory_faultInfo : (s.writeMemory).faultInfo = s.faultInfo := rfl
@[simp] theorem State.writeMemory_ovf : (s.writeMemory).ovf = s.ovf := rfl
@[simp] theorem State.writeMemory_icount : (s.writeMemory).icount = s.icount := rfl
@[simp] theorem State.writeMemory_prog : (s.writeMemory).prog = s.prog := rfl
@[simp] theorem State.writeMemory_input : (s.writeMemory).input = s.input := rfl
@[simp] theorem State.writeMemory_memSize : (s.writeMemory).memSize = s.memSize := rfl
@[simp] theorem State.writeMemory_limit : (s.writeMemory).limit = s.limit := rfl
@[simp] theorem State.writeMemory_rem : (s.writeMemory).rem = s.rem := rfl
end

section
variable (s : State)
@[simp] theorem State.aluAdd_acc : (s.aluAdd).acc = s.acc := rfl
@[simp] theorem State.aluAdd_da : (s.aluAdd).da = s.da := rfl
@[simp] theorem State.aluAdd_dr : (s.aluAdd).dr = s.dr := rfl
@[simp] theorem State.aluAdd_alu : (s.aluAdd).alu = AluWord.ofInt (s.acc.toInt + s.dr.toInt) := rfl
@[simp] theorem State.aluAdd_dmem : (s.aluAdd).dmem = s.dmem := rfl
@[simp] theorem State.aluAdd_inCur : (s.aluAdd).inCur = s.inCur := rfl
@[simp] theorem State.aluAdd_output : (s.aluAdd).output = s.output := rfl
@[simp] theorem State.aluAdd_pc : (s.aluAdd).pc = s.pc := rfl
@[simp] theorem State.aluAdd_ir : (s.aluAdd).ir = s.ir := rfl
@[simp] theorem State.aluAdd_tick : (s.aluAdd).tick = s.tick := rfl
@[simp] theorem State.aluAdd_runState : (s.aluAdd).runState = s.runState := rfl
@[simp] theorem State.aluAdd_faultCause : (s.aluAdd).faultCause = s.faultCause := rfl
@[simp] theorem State.aluAdd_faultInfo : (s.aluAdd).faultInfo = s.faultInfo := rfl
@[simp] theorem State.aluAdd_ovf : (s.aluAdd).ovf = s.ovf := rfl
@[simp] theorem State.aluAdd_icount : (s.aluAdd).icount = s.icount := rfl
@[simp] theorem State.aluAdd_prog : (s.aluAdd).prog = s.prog := rfl
@[simp] theorem State.aluAdd_input : (s.aluAdd).input = s.input := rfl
@[simp] theorem State.aluAdd_memSize : (s.aluAdd).memSize = s.memSize := rfl
@[simp] theorem State.aluAdd_limit : (s.aluAdd).limit = s.limit := rfl
@[simp] theorem State.aluAdd_rem : (s.aluAdd).rem = s.rem := rfl
end

section
variable (s : State)
@[simp] theorem State.aluSub_acc : (s.aluSub).acc = s.acc := rfl
@[simp] theorem State.aluSub_da : (s.aluSub).da = s.da := rfl
@[simp] theorem State.aluSub_dr : (s.aluSub).dr = s.dr := rfl
@[simp] theorem State.aluSub_alu : (s.aluSub).alu = AluWord.ofInt (s.acc.toInt - s.dr.toInt) := rfl
@[simp] theorem State.aluSub_dmem : (s.aluSub).dmem = s.dmem := rfl
@[simp] theorem State.aluSub_inCur : (s.aluSub).inCur = s.inCur := rfl
@[simp] theorem State.aluSub_output : (s.aluSub).output = s.output := rfl
@[simp] theorem State.aluSub_pc : (s.aluSub).pc = s.pc := rfl
@[simp] theorem State.aluSub_ir : (s.aluSub).ir = s.ir := rfl
@[simp] theorem State.aluSub_tick : (s.aluSub).tick = s.tick := rfl
@[simp] theorem State.aluSub_runState : (s.aluSub).runState = s.runState := rfl
@[simp] theorem State.aluSub_faultCause : (s.aluSub).faultCause = s.faultCause := rfl
@[simp] theorem State.aluSub_faultInfo : (s.aluSub).faultInfo = s.faultInfo := rfl
@[simp] theorem State.aluSub_ovf : (s.aluSub).ovf = s.ovf := rfl
@[simp] theorem State.aluSub_icount : (s.aluSub).icount = s.icount := rfl
@[simp] theorem State.aluSub_prog : (s.aluSub).prog = s.prog := rfl
@[simp] theorem State.aluSub_input : (s.aluSub).input = s.input := rfl
@[simp] theorem State.aluSub_memSize : (s.aluSub).memSize = s.memSize := rfl
@[simp] theorem State.aluSub_limit : (s.aluSub).limit = s.limit := rfl
@[simp] theorem State.aluSub_rem : (s.aluSub).rem = s.rem := rfl
end

section
variable (s : State)
@[simp] theorem State.aluPassRight_acc : (s.aluPassRight).acc = s.acc := rfl
@[simp] theorem State.aluPassRight_da : (s.aluPassRight).da = s.da := rfl
@[simp] theorem State.aluPassRight_dr : (s.aluPassRight).dr = s.dr := rfl
@[simp] theorem State.aluPassRight_alu : (s.aluPassRight).alu = AluWord.ofInt s.dr.toInt := rfl
@[simp] theorem State.aluPassRight_dmem : (s.aluPassRight).dmem = s.dmem := rfl
@[simp] theorem State.aluPassRight_inCur : (s.aluPassRight).inCur = s.inCur := rfl
@[simp] theorem State.aluPassRight_output : (s.aluPassRight).output = s.output := rfl
@[simp] theorem State.aluPassRight_pc : (s.aluPassRight).pc = s.pc := rfl
@[simp] theorem State.aluPassRight_ir : (s.aluPassRight).ir = s.ir := rfl
@[simp] theorem State.aluPassRight_tick : (s.aluPassRight).tick = s.tick := rfl
@[simp] theorem State.aluPassRight_runState : (s.aluPassRight).runState = s.runState := rfl
@[simp] theorem State.aluPassRight_faultCause : (s.aluPassRight).faultCause = s.faultCause := rfl
@[simp] theorem State.aluPassRight_faultInfo : (s.aluPassRight).faultInfo = s.faultInfo := rfl
@[simp] theorem State.aluPassRight_ovf : (s.aluPassRight).ovf = s.ovf := rfl
@[simp] theorem State.aluPassRight_icount : (s.aluPassRight).icount = s.icount := rfl
@[simp] theorem State.aluPassRight_prog : (s.aluPassRight).prog = s.prog := rfl
@[simp] theorem State.aluPassRight_input : (s.aluPassRight).input = s.input := rfl
@[simp] theorem State.aluPassRight_memSize : (s.aluPassRight).memSize = s.memSize := rfl
@[simp] theorem State.aluPassRight_limit : (s.aluPassRight).limit = s.limit := rfl
@[simp] theorem State.aluPassRight_rem : (s.aluPassRight).rem = s.rem := rfl
end

section
variable (s : State)
@[simp] theorem State.latchAccFromAlu_acc : (s.latchAccFromAlu).acc = Word.ofInt (wrap32 s.alu.toInt) := rfl
@[simp] theorem State.latchAccFromAlu_da : (s.latchAccFromAlu).da = s.da := rfl
@[simp] theorem State.latchAccFromAlu_dr : (s.latchAccFromAlu).dr = s.dr := rfl
@[simp] theorem State.latchAccFromAlu_alu : (s.latchAccFromAlu).alu = s.alu := rfl
@[simp] theorem State.latchAccFromAlu_dmem : (s.latchAccFromAlu).dmem = s.dmem := rfl
@[simp] theorem State.latchAccFromAlu_inCur : (s.latchAccFromAlu).inCur = s.inCur := rfl
@[simp] theorem State.latchAccFromAlu_output : (s.latchAccFromAlu).output = s.output := rfl
@[simp] theorem State.latchAccFromAlu_pc : (s.latchAccFromAlu).pc = s.pc := rfl
@[simp] theorem State.latchAccFromAlu_ir : (s.latchAccFromAlu).ir = s.ir := rfl
@[simp] theorem State.latchAccFromAlu_tick : (s.latchAccFromAlu).tick = s.tick := rfl
@[simp] theorem State.latchAccFromAlu_runState : (s.latchAccFromAlu).runState = s.runState := rfl
@[simp] theorem State.latchAccFromAlu_faultCause : (s.latchAccFromAlu).faultCause = s.faultCause := rfl
@[simp] theorem State.latchAccFromAlu_faultInfo : (s.latchAccFromAlu).faultInfo = s.faultInfo := rfl
@[simp] theorem State.latchAccFromAlu_ovf : (s.latchAccFromAlu).ovf = (s.ovf || overflows s.alu.toInt) := rfl
@[simp] theorem State.latchAccFromAlu_icount : (s.latchAccFromAlu).icount = s.icount := rfl
@[simp] theorem State.latchAccFromAlu_prog : (s.latchAccFromAlu).prog = s.prog := rfl
@[simp] theorem State.latchAccFromAlu_input : (s.latchAccFromAlu).input = s.input := rfl
@[simp] theorem State.latchAccFromAlu_memSize : (s.latchAccFromAlu).memSize = s.memSize := rfl
@[simp] theorem State.latchAccFromAlu_limit : (s.latchAccFromAlu).limit = s.limit := rfl
@[simp] theorem State.latchAccFromAlu_rem : (s.latchAccFromAlu).rem = s.rem := rfl
end

section
variable (h : Bool) (s : State)
@[simp] theorem State.complete_acc : (s.complete h).acc = s.acc := rfl
@[simp] theorem State.complete_da : (s.complete h).da = s.da := rfl
@[simp] theorem State.complete_dr : (s.complete h).dr = s.dr := rfl
@[simp] theorem State.complete_alu : (s.complete h).alu = s.alu := rfl
@[simp] theorem State.complete_dmem : (s.complete h).dmem = s.dmem := rfl
@[simp] theorem State.complete_inCur : (s.complete h).inCur = s.inCur := rfl
@[simp] theorem State.complete_output : (s.complete h).output = s.output := rfl
@[simp] theorem State.complete_pc : (s.complete h).pc = s.pc := rfl
@[simp] theorem State.complete_ir : (s.complete h).ir = s.ir := rfl
@[simp] theorem State.complete_tick : (s.complete h).tick = s.tick := rfl
@[simp] theorem State.complete_runState : (s.complete h).runState = if h then .halted else if s.icount + 1 = s.limit then .wdogStopped else s.runState := rfl
@[simp] theorem State.complete_faultCause : (s.complete h).faultCause = s.faultCause := rfl
@[simp] theorem State.complete_faultInfo : (s.complete h).faultInfo = s.faultInfo := rfl
@[simp] theorem State.complete_ovf : (s.complete h).ovf = s.ovf := rfl
@[simp] theorem State.complete_icount : (s.complete h).icount = s.icount + 1 := rfl
@[simp] theorem State.complete_prog : (s.complete h).prog = s.prog := rfl
@[simp] theorem State.complete_input : (s.complete h).input = s.input := rfl
@[simp] theorem State.complete_memSize : (s.complete h).memSize = s.memSize := rfl
@[simp] theorem State.complete_limit : (s.complete h).limit = s.limit := rfl
@[simp] theorem State.complete_rem : (s.complete h).rem = s.rem := rfl
end

end Sys2Proof.Machine
end

