-- ==== Sys2Proof/Laws/Ops.lean ====
section
/-! SUPPORT. What each shared operation can do, said once: the signals that can fail, operand fetch in every mode,
the execute groups, completion, fetch. -/

namespace Sys2Proof.Machine

/-- A signed value is a legal address in the sense of the bounds check (R64). -/
theorem State.legalAddress_iff (s : State) (v : Word) :
    s.legalAddress v = true ↔ 0 ≤ v.toInt ∧ v.toInt < s.memSize := by
  simp [State.legalAddress]

/-- The argument's word is legal exactly when the argument is. -/
theorem State.legalAddress_ofInt (s : State) {arg : Int} (h : fitsWord arg = true) :
    s.legalAddress (Word.ofInt arg) = true ↔ 0 ≤ arg ∧ arg < s.memSize := by
  rw [State.legalAddress_iff, Word.toInt_ofInt h]

/-- Two states with one MEM_SIZE have the same legal addresses. -/
theorem State.legalAddress_congr {s t : State} (h : t.memSize = s.memSize) (v : Word) :
    t.legalAddress v = s.legalAddress v := by
  simp only [State.legalAddress, h]

section
variable (f : State → Group) (s : State) (halt : Bool)
@[simp] theorem Group.andThen_completed : (Group.completed s).andThen f = f s := rfl
@[simp] theorem Group.andThen_faulted : (Group.faulted s).andThen f = .faulted s := rfl
@[simp] theorem Group.finish_completed : (Group.completed s).finish halt = .next (s.complete halt) := rfl
@[simp] theorem Group.finish_faulted : (Group.faulted s).finish halt = .next s := rfl
end

/-- The end of an instruction is always a next state. -/
theorem Group.finish_next (halt : Bool) (g : Group) : ∃ t, g.finish halt = .next t := by
  cases g <;> exact ⟨_, rfl⟩

/-- The two ends of an instruction. -/
theorem Group.finish_cases {halt : Bool} {g : Group} {t : State} (h : g.finish halt = .next t) :
    (∃ u, g = .completed u ∧ t = u.complete halt) ∨ g = .faulted t := by
  cases g with
  | completed u => exact .inl ⟨u, rfl, by simpa using h.symm⟩
  | faulted u => exact .inr (by simpa using h)

/-! ### Operand fetch -/

/-- Operand fetch, IMMEDIATE. -/
theorem fetchImmediate_eq (arg : Int) (s : State) :
    fetchImmediate arg s = .completed { s with dr := Word.ofInt arg, tick := s.tick + 1 } := rfl

/-- The group that latches an address. -/
theorem addressGroup_eq (v : Word) (s : State) :
    addressGroup v s = if s.legalAddress v then .completed { s with da := v, tick := s.tick + 1 }
    else .faulted (s.raiseFault .outOfMemoryAddress v) := by
  unfold addressGroup latchDataAddress
  split <;> rfl

/-- Operand fetch, DIRECT, on the argument's word. -/
theorem fetchDirect_eq (arg : Int) (s : State) :
    fetchDirect arg s = if s.legalAddress (Word.ofInt arg) then
      .completed { s with da := Word.ofInt arg, dr := s.dmem.read (Word.ofInt arg).toNat, tick := s.tick + 2 }
    else .faulted (s.raiseFault .outOfMemoryAddress (Word.ofInt arg)) := by
  unfold fetchDirect addressGroup latchDataAddress
  split <;> rfl

/-- The second hop of INDIRECT, from any state. -/
theorem pointerHop_eq (t : State) :
    (addressGroup t.dr t).andThen readGroup = if t.legalAddress t.dr then
      .completed { t with da := t.dr, dr := t.dmem.read t.dr.toNat, tick := t.tick + 2 }
    else .faulted (t.raiseFault .outOfMemoryAddress t.dr) := by
  unfold addressGroup latchDataAddress
  split <;> rfl

/-- Operand fetch, INDIRECT, on the argument's word and the pointer read. -/
theorem fetchIndirect_eq (arg : Int) (s : State) :
    fetchIndirect arg s =
      if s.legalAddress (Word.ofInt arg) then
        if s.legalAddress (s.dmem.read (Word.ofInt arg).toNat) then
          .completed { s with da := s.dmem.read (Word.ofInt arg).toNat,
                              dr := s.dmem.read (s.dmem.read (Word.ofInt arg).toNat).toNat, tick := s.tick + 4 }
        else
          .faulted ({ s with da := Word.ofInt arg, dr := s.dmem.read (Word.ofInt arg).toNat,
                             tick := s.tick + 2 }.raiseFault .outOfMemoryAddress (s.dmem.read (Word.ofInt arg).toNat))
      else .faulted (s.raiseFault .outOfMemoryAddress (Word.ofInt arg)) := by
  rw [fetchIndirect, fetchDirect_eq]
  split
  · exact pointerHop_eq _
  · rfl

/-! ### Execute groups -/

theorem loadGroup_eq (s : State) :
    loadGroup s = .completed { s with
      pc := s.pc + 1#32, alu := AluWord.ofInt s.dr.toInt,
      acc := Word.ofInt (wrap32 (AluWord.ofInt s.dr.toInt).toInt),
      ovf := s.ovf || overflows (AluWord.ofInt s.dr.toInt).toInt, tick := s.tick + 1 } := rfl

theorem storeGroups_eq (s : State) :
    storeGroups s = if s.legalAddress s.dr then
      .completed { s with pc := s.pc + 1#32, da := s.dr, dmem := s.dmem.write s.dr.toNat s.acc, tick := s.tick + 2 }
    else .faulted (s.raiseFault .outOfMemoryAddress s.dr) := by
  unfold storeGroups storeAddressGroup latchDataAddress
  split <;> rfl

theorem addGroups_eq (s : State) :
    addGroups s = .completed { s with
      pc := s.pc + 1#32, alu := AluWord.ofInt (s.acc.toInt + s.dr.toInt),
      acc := Word.ofInt (wrap32 (AluWord.ofInt (s.acc.toInt + s.dr.toInt)).toInt),
      ovf := s.ovf || overflows (AluWord.ofInt (s.acc.toInt + s.dr.toInt)).toInt, tick := s.tick + 2 } := rfl

theorem subtractGroups_eq (s : State) :
    subtractGroups s = .completed { s with
      pc := s.pc + 1#32, alu := AluWord.ofInt (s.acc.toInt - s.dr.toInt),
      acc := Word.ofInt (wrap32 (AluWord.ofInt (s.acc.toInt - s.dr.toInt)).toInt),
      ovf := s.ovf || overflows (AluWord.ofInt (s.acc.toInt - s.dr.toInt)).toInt, tick := s.tick + 2 } := rfl

theorem remainderGroups_eq (s : State) :
    remainderGroups s = if s.dr.toInt = 0 then .faulted (s.raiseFault .divisionByZero 0#32)
    else .completed { s with
      pc := s.pc + 1#32, alu := AluWord.ofInt (remainder s.rem s.acc.toInt s.dr.toInt),
      acc := Word.ofInt (wrap32 (AluWord.ofInt (remainder s.rem s.acc.toInt s.dr.toInt)).toInt),
      ovf := s.ovf || overflows (AluWord.ofInt (remainder s.rem s.acc.toInt s.dr.toInt)).toInt,
      tick := s.tick + 2 } := by
  unfold remainderGroups aluDiv
  split <;> rfl

theorem jumpGroup_eq (branch : Bool) (arg : Int) (s : State) :
    jumpGroup branch arg s =
      .completed { s with pc := if branch then Word.ofInt arg else s.pc + 1#32, tick := s.tick + 1 } := by
  cases branch <;> rfl

theorem inputGroup_eq (s : State) :
    inputGroup s = match s.input[s.inCur]? with
      | some c => .completed { s with acc := Word.ofInt c.val, inCur := s.inCur + 1, pc := s.pc + 1#32, tick := s.tick + 1 }
      | none => .faulted (s.raiseFault .endOfInput 0#32) := by
  unfold inputGroup latchAccFromInput
  cases s.input[s.inCur]? <;> rfl

theorem outputGroup_eq (s : State) :
    outputGroup s = match charCode s.acc with
      | some c => .completed { s with output := s.output ++ [c], pc := s.pc + 1#32, tick := s.tick + 1 }
      | none => .faulted (s.raiseFault .outputRange s.acc) := by
  unfold outputGroup emitOutput
  cases charCode s.acc <;> rfl

/-- A character code is the accumulator's value. -/
theorem charCode_some {acc : Word} {c : CharCode} (h : charCode acc = some c) :
    0 ≤ acc.toInt ∧ acc.toInt ≤ 1114111 ∧ (c.val : Int) = acc.toInt := by
  unfold charCode at h
  split at h
  · rename_i hr
    simp only [Config.maxCharCode] at hr
    obtain rfl := Option.some.inj h
    exact ⟨hr.1, hr.2, by simp; omega⟩
  · cases h

theorem charCode_none {acc : Word} : charCode acc = none ↔ acc.toInt < 0 ∨ 1114111 < acc.toInt := by
  unfold charCode
  split
  · rename_i hr
    simp only [Config.maxCharCode] at hr
    simp
    omega
  · rename_i hr
    simp only [Config.maxCharCode] at hr
    simp
    omega

/-! ### Values -/

theorem fitsWord_wrap32 (v : Int) : fitsWord (wrap32 v) = true := by
  rw [fitsWord_iff]
  unfold wrap32
  simp only [Config.min32, Config.max32]
  split <;> [skip; split] <;> omega

/-- The wrap leaves a value in range alone. -/
theorem wrap32_of_fits {v : Int} (h : fitsWord v = true) : wrap32 v = v := by
  obtain ⟨lo, hi⟩ := (fitsWord_iff v).1 h
  rw [wrap32, if_neg (by omega), if_neg (by omega)]

/-- OVF is set exactly when the wrap changes the value (R157). -/
theorem overflows_iff (v : Int) : overflows v = true ↔ wrap32 v ≠ v := by
  unfold overflows wrap32
  simp only [Config.min32, Config.max32, Bool.or_eq_true, decide_eq_true_eq]
  split <;> [skip; split] <;> simp <;> omega

/-- Every convention's remainder is smaller than the divisor. -/
theorem remainder_natAbs_lt (c : Config.Remainder) (x : Int) {y : Int} (h : y ≠ 0) :
    (remainder c x y).natAbs < y.natAbs := by
  cases c with
  | floored =>
    simp only [remainder]
    rcases lt_or_gt_of_ne h with hy | hy
    · have h0 : Int.fmod x y = -Int.fmod (-x) (-y) := by rw [Int.neg_fmod_neg, neg_neg]
      have h1 := Int.fmod_nonneg_of_pos (-x) (show 0 < -y by omega)
      have h2 := Int.fmod_lt_of_pos (-x) (show 0 < -y by omega)
      omega
    · have h1 := Int.fmod_nonneg_of_pos x hy
      have h2 := Int.fmod_lt_of_pos x hy
      omega
  | truncated =>
    simp only [remainder, Int.natAbs_tmod]
    exact Nat.mod_lt _ (by omega)
  | euclidean =>
    simp only [remainder]
    have h1 : 0 ≤ Int.emod x y := Int.emod_nonneg x h
    have h2 : Int.emod x y < y.natAbs := Int.emod_lt x h
    omega

/-- ACC after the latch is the wrapped value. -/
theorem toInt_ofInt_wrap32 (v : Int) : (Word.ofInt (wrap32 v)).toInt = wrap32 v := Word.toInt_ofInt (fitsWord_wrap32 v)

/-- A value in range sets no overflow. -/
theorem overflows_of_fits {v : Int} (h : fitsWord v = true) : overflows v = false := by
  by_contra hn
  exact (overflows_iff v).1 (by simpa using hn) (wrap32_of_fits h)

/-- A remainder by a register's value fits ACC. -/
theorem fitsWord_remainder (c : Config.Remainder) (x : Int) {y : Word} (h : y.toInt ≠ 0) :
    fitsWord (remainder c x y.toInt) = true := by
  have := remainder_natAbs_lt c x h
  have := Word.min_le_toInt y
  have := Word.toInt_le_max y
  rw [fitsWord_iff]
  simp only [Config.min32, Config.max32]
  omega

/-! ### Fetch and the cycle -/

theorem fetch_of_word {s : State} {w : InstrWord} (h : 0 ≤ s.pc.toInt) (hw : s.prog[s.pc.toInt.toNat]? = some w) :
    fetch s = .completed { s with ir := w } := by
  rw [fetch, if_pos h, hw]

/-- What fetch can do (R111). -/
theorem fetch_cases (s : State) :
    (∃ w, 0 ≤ s.pc.toInt ∧ s.prog[s.pc.toInt.toNat]? = some w ∧ fetch s = .completed { s with ir := w }) ∨
    ((s.pc.toInt < 0 ∨ (s.prog.length : Int) ≤ s.pc.toInt) ∧ fetch s = .faulted (s.raiseFault .pcOutOfRange s.pc)) := by
  unfold fetch
  split
  · rename_i h
    cases hw : s.prog[s.pc.toInt.toNat]? with
    | some w => exact .inl ⟨w, h, rfl, rfl⟩
    | none =>
      rw [List.getElem?_eq_none_iff] at hw
      exact .inr ⟨.inr (by omega), rfl⟩
  · exact .inr ⟨.inl (by omega), rfl⟩

theorem step_of_running {s : State} (h : s.runState = .running) : step s = instructionCycle s := by
  unfold step
  split <;> simp_all

end Sys2Proof.Machine
end

