-- ==== Sys2Proof/Laws/Exec.lean ====
section
/-! SUPPORT. Every meaning as operand fetch, then execute groups, then completion (R110), and what operand fetch can
do, said once for all instructions. -/

namespace Sys2Proof.Machine

/-- The operand fetch of an instruction; the opcodes without one issue no signal. -/
def operandFetch (i : Instr) (s : State) : Group :=
  if (opcodeOf i).isMemoryOperand then
    match i.toRecord.mode with
    | .absent => .completed s
    | .immediate => fetchImmediate i.toRecord.arg s
    | .direct => fetchDirect i.toRecord.arg s
    | .indirect => fetchIndirect i.toRecord.arg s
  else .completed s

/-- The execute groups of an opcode with its argument. -/
def executeGroups (op : Opcode) (arg : Int) (s : State) : Group :=
  match op with
  | .ld => loadGroup s
  | .st => storeGroups s
  | .add => addGroups s
  | .sub => subtractGroups s
  | .div => remainderGroups s
  | .cmp => subtractGroups s
  | .jmp => jumpGroup true arg s
  | .jz => jumpGroup (branchZ s.acc) arg s
  | .jnz => jumpGroup (branchNZ s.acc) arg s
  | .jn => jumpGroup (branchN s.acc) arg s
  | .jle => jumpGroup (branchLE s.acc) arg s
  | .jge => jumpGroup (branchGE s.acc) arg s
  | .inp => inputGroup s
  | .out => outputGroup s
  | .outc => outputGroup s
  | .hlt => .completed s.countTick

/-- An instruction is its operand fetch, its execute groups and its completion. -/
theorem exec_eq (i : Instr) (s : State) :
    exec i s = ((operandFetch i s).andThen (executeGroups (opcodeOf i) i.toRecord.arg)).finish (opcodeOf i == .hlt) := by
  cases i <;> rfl

/-- What an operand fetch that completes changes: DR, DA, and its ticks. -/
theorem operandFetch_completed {i : Instr} {s u : State} (h : operandFetch i s = .completed u) :
    u = { s with
      da := u.da, dr := u.dr,
      tick := s.tick + (if (opcodeOf i).isMemoryOperand then fetchTicks i.toRecord.mode else 0) } := by
  unfold operandFetch at h
  split at h
  · rename_i hm
    rw [if_pos hm]
    split at h
    · cases h; simp [*, fetchTicks]
    · rw [fetchImmediate_eq] at h; cases h; simp [*, fetchTicks]
    · rw [fetchDirect_eq] at h
      split at h <;> cases h
      simp [*, fetchTicks]
    · rw [fetchIndirect_eq] at h
      split at h <;> [split at h; skip] <;> cases h
      simp [*, fetchTicks]
  · rename_i hm
    cases h
    simp [hm]

/-- What an operand fetch that faults leaves: OutOfMemoryAddress, and at most two ticks of the first hop. -/
theorem operandFetch_faulted {i : Instr} {s t : State} (h : operandFetch i s = .faulted t) :
    (opcodeOf i).isMemoryOperand = true ∧ s.tick ≤ t.tick ∧ t.tick ≤ s.tick + 2 ∧
    t = { s with
      da := t.da, dr := t.dr, tick := t.tick, runState := .faulted, faultCause := .outOfMemoryAddress,
      faultInfo := t.faultInfo } := by
  unfold operandFetch at h
  split at h
  · rename_i hm
    refine ⟨hm, ?_⟩
    split at h
    · cases h
    · cases h
    · rw [fetchDirect_eq] at h
      split at h <;> cases h
      simp [State.raiseFault]
    · rw [fetchIndirect_eq] at h
      split at h <;> [split at h; skip] <;> cases h <;> simp [State.raiseFault]
  · cases h

/-- The word of DMEM at a legal address given as a word. -/
theorem State.cell_of_legal {s : State} {v : Word} (h : s.legalAddress v = true) :
    s.cell v.toInt = (s.dmem.read v.toNat).toInt := by
  rw [State.cell, Word.toNat_eq_of_nonneg ((s.legalAddress_iff v).1 h).1]

/-- Operand fetch on legal addresses completes, with the operand in DR and DA as R119 says. -/
theorem operandFetch_legal {i : Instr} {s : State} (hm : (opcodeOf i).isMemoryOperand = true) (hw : i.wf = true)
    (hl : OperandLegal s i) :
    ∃ u, operandFetch i s = .completed u ∧ u.dr.toInt = operandOf s i ∧ u.da.toInt = addressAfterFetch s i := by
  have hf : fitsWord i.toRecord.arg = true := by
    simp only [Instr.wf, Record.wf, Bool.and_eq_true] at hw
    exact hw.1
  have hn : i.toRecord.mode ≠ .absent := by
    intro ha
    simp only [Instr.wf, Record.wf, Record.hasNeededMode, Bool.and_eq_true] at hw
    have := hw.2
    rw [ha] at this
    simp [opcodeOf] at hm
    simp [hm] at this
  unfold operandFetch
  rw [if_pos hm]
  unfold OperandLegal at hl
  unfold operandOf addressAfterFetch
  cases hmode : i.toRecord.mode with
  | absent => exact absurd hmode hn
  | immediate => exact ⟨_, rfl, Word.toInt_ofInt hf, rfl⟩
  | direct =>
    simp only [hmode] at hl ⊢
    have h1 := (s.legalAddress_ofInt hf).2 hl
    rw [fetchDirect_eq, if_pos h1]
    refine ⟨_, rfl, ?_, Word.toInt_ofInt hf⟩
    have := State.cell_of_legal h1
    rw [Word.toInt_ofInt hf] at this
    exact this.symm
  | indirect =>
    simp only [hmode] at hl ⊢
    have h1 := (s.legalAddress_ofInt hf).2 hl.1
    have hc := State.cell_of_legal h1
    rw [Word.toInt_ofInt hf] at hc
    have h2 : s.legalAddress (s.dmem.read (Word.ofInt i.toRecord.arg).toNat) = true := by
      rw [State.legalAddress_iff, ← hc]
      exact hl.2
    rw [fetchIndirect_eq, if_pos h1, if_pos h2]
    refine ⟨_, rfl, ?_, hc.symm⟩
    rw [hc]
    exact (State.cell_of_legal h2).symm

/-- What the execute groups of an opcode that complete do: their ticks, and what they leave alone. -/
theorem executeGroups_completed {op : Opcode} {arg : Int} {s u : State} (h : executeGroups op arg s = .completed u) :
    u.tick = s.tick + executeTicks op ∧ u.icount = s.icount ∧ u.runState = s.runState ∧
    u.faultCause = s.faultCause ∧ u.faultInfo = s.faultInfo ∧ u.ir = s.ir ∧ SameParameters s u ∧
    (op ≠ .st → u.dmem = s.dmem) ∧ (op ≠ .inp → u.inCur = s.inCur) ∧
    (op ≠ .out → op ≠ .outc → u.output = s.output) ∧ (u.output = s.output ∨ ∃ c, u.output = s.output ++ [c]) ∧
    (op = .hlt → u.pc = s.pc) := by
  unfold executeGroups at h
  split at h
  case h_1 => rw [loadGroup_eq] at h; cases h; simp [executeTicks, SameParameters]
  case h_2 => rw [storeGroups_eq] at h; split at h <;> cases h; simp [executeTicks, SameParameters]
  case h_3 => rw [addGroups_eq] at h; cases h; simp [executeTicks, SameParameters]
  case h_4 => rw [subtractGroups_eq] at h; cases h; simp [executeTicks, SameParameters]
  case h_5 => rw [remainderGroups_eq] at h; split at h <;> cases h; simp [executeTicks, SameParameters]
  case h_6 => rw [subtractGroups_eq] at h; cases h; simp [executeTicks, SameParameters]
  case h_13 => rw [inputGroup_eq] at h; split at h <;> cases h; simp [executeTicks, SameParameters]
  case h_14 => rw [outputGroup_eq] at h; split at h <;> cases h; simp [executeTicks, SameParameters]
  case h_15 => rw [outputGroup_eq] at h; split at h <;> cases h; simp [executeTicks, SameParameters]
  case h_16 => cases h; simp [executeTicks, SameParameters]
  all_goals rw [jumpGroup_eq] at h; cases h; simp [executeTicks, SameParameters]

/-- What the execute groups of an opcode that fault leave: the fault registers, and the opcode's one cause. -/
theorem executeGroups_faulted {op : Opcode} {arg : Int} {s t : State} (h : executeGroups op arg s = .faulted t) :
    t = { s with runState := .faulted, faultCause := t.faultCause, faultInfo := t.faultInfo } ∧
    ((op = .st ∧ t.faultCause = .outOfMemoryAddress ∧ t.faultInfo = s.dr ∧ s.legalAddress s.dr = false) ∨
     (op = .div ∧ t.faultCause = .divisionByZero ∧ t.faultInfo = 0#32 ∧ s.dr = 0#32) ∨
     (op = .inp ∧ t.faultCause = .endOfInput ∧ t.faultInfo = 0#32 ∧ s.input.length ≤ s.inCur) ∨
     ((op = .out ∨ op = .outc) ∧ t.faultCause = .outputRange ∧ t.faultInfo = s.acc ∧ charCode s.acc = none)) := by
  unfold executeGroups at h
  split at h
  case h_1 => rw [loadGroup_eq] at h; cases h
  case h_2 => rw [storeGroups_eq] at h; split at h <;> cases h; simp_all [State.raiseFault]
  case h_3 => rw [addGroups_eq] at h; cases h
  case h_4 => rw [subtractGroups_eq] at h; cases h
  case h_5 =>
    rw [remainderGroups_eq] at h
    split at h <;> cases h
    rename_i hz
    have h0 : s.dr = 0#32 := by rw [← Word.ofInt_toInt s.dr, hz]; rfl
    simp [State.raiseFault, h0]
  case h_6 => rw [subtractGroups_eq] at h; cases h
  case h_13 => rw [inputGroup_eq] at h; split at h <;> cases h; simp_all [State.raiseFault]
  case h_14 => rw [outputGroup_eq] at h; split at h <;> cases h; simp_all [State.raiseFault]
  case h_15 => rw [outputGroup_eq] at h; split at h <;> cases h; simp_all [State.raiseFault]
  case h_16 => cases h
  all_goals rw [jumpGroup_eq] at h; cases h

/-- What the execute groups of an opcode that complete do to ACC and OVF. -/
theorem executeGroups_acc {op : Opcode} {arg : Int} {s u : State} (h : executeGroups op arg s = .completed u) :
    (op ∈ [Opcode.ld, .add, .sub, .cmp, .div] →
      u.acc = Word.ofInt (wrap32 u.alu.toInt) ∧ u.ovf = (s.ovf || overflows u.alu.toInt)) ∧
    (op ∉ [Opcode.ld, .add, .sub, .cmp, .div] → u.ovf = s.ovf ∧ (op ≠ .inp → u.acc = s.acc)) ∧
    (op = .ld ∨ op = .div → u.ovf = s.ovf) ∧
    (op = .inp → ∃ c, s.input[s.inCur]? = some c ∧ u.acc.toInt = c.val) := by
  unfold executeGroups at h
  split at h
  case h_1 =>
    rw [loadGroup_eq] at h
    cases h
    simp [AluWord.toInt_pass, overflows_of_fits (Word.fitsWord_toInt _)]
  case h_2 => rw [storeGroups_eq] at h; split at h <;> cases h; simp
  case h_3 => rw [addGroups_eq] at h; cases h; simp
  case h_4 => rw [subtractGroups_eq] at h; cases h; simp
  case h_5 =>
    rw [remainderGroups_eq] at h
    split at h <;> cases h
    rename_i hz
    have hf := fitsWord_remainder s.rem s.acc.toInt hz
    have h2 := (fitsWord_iff _).1 hf
    simp only [Config.min32, Config.max32] at h2
    have ha : (AluWord.ofInt (remainder s.rem s.acc.toInt s.dr.toInt)).toInt = _ :=
      AluWord.toInt_ofInt (by omega) (by omega)
    simp [ha, overflows_of_fits hf]
  case h_6 => rw [subtractGroups_eq] at h; cases h; simp
  case h_13 =>
    rw [inputGroup_eq] at h
    split at h <;> cases h
    rename_i c hc
    simp [hc, Word.toInt_ofInt (Word.fitsWord_charCode c)]
  case h_14 => rw [outputGroup_eq] at h; split at h <;> cases h; simp
  case h_15 => rw [outputGroup_eq] at h; split at h <;> cases h; simp
  case h_16 => cases h; simp
  all_goals rw [jumpGroup_eq] at h; cases h; simp

/-- What the execute groups of an opcode that complete do to DMEM, DA and the input cursor. -/
theorem executeGroups_memory {op : Opcode} {arg : Int} {s u : State} (h : executeGroups op arg s = .completed u) :
    ((u.dmem = s.dmem ∧ u.da = s.da) ∨
      (s.legalAddress s.dr = true ∧ u.da = s.dr ∧ u.dmem = s.dmem.write s.dr.toNat s.acc)) ∧
    (u.inCur = s.inCur ∨ (u.inCur = s.inCur + 1 ∧ s.inCur < s.input.length)) := by
  unfold executeGroups at h
  split at h
  case h_1 => rw [loadGroup_eq] at h; cases h; simp
  case h_2 => rw [storeGroups_eq] at h; split at h <;> cases h; simp [*]
  case h_3 => rw [addGroups_eq] at h; cases h; simp
  case h_4 => rw [subtractGroups_eq] at h; cases h; simp
  case h_5 => rw [remainderGroups_eq] at h; split at h <;> cases h; simp
  case h_6 => rw [subtractGroups_eq] at h; cases h; simp
  case h_13 =>
    rw [inputGroup_eq] at h
    split at h <;> cases h
    rename_i c hc
    exact ⟨.inl ⟨rfl, rfl⟩, .inr ⟨rfl, (List.getElem?_eq_some_iff.1 hc).1⟩⟩
  case h_14 => rw [outputGroup_eq] at h; split at h <;> cases h; simp
  case h_15 => rw [outputGroup_eq] at h; split at h <;> cases h; simp
  case h_16 => cases h; simp
  all_goals rw [jumpGroup_eq] at h; cases h; simp

/-- Operand fetch leaves DA as it was or at an address it checked. -/
theorem operandFetch_da {i : Instr} {s u : State}
    (h : operandFetch i s = .completed u ∨ operandFetch i s = .faulted u) :
    u.da = s.da ∨ s.legalAddress u.da = true := by
  unfold operandFetch at h
  split at h
  · split at h
    · rcases h with h | h <;> cases h; exact .inl rfl
    · rcases h with h | h <;> cases h; exact .inl rfl
    · rw [fetchDirect_eq] at h
      split at h <;> rcases h with h | h <;> cases h
      · exact .inr ‹_›
      · exact .inl rfl
    · rw [fetchIndirect_eq] at h
      split at h <;> [split at h; skip] <;> rcases h with h | h <;> cases h
      · exact .inr ‹_›
      · exact .inr ‹_›
      · exact .inl rfl
  · rcases h with h | h <;> cases h; exact .inl rfl

/-- Everything an instruction can do: fault in operand fetch, fault in its execute groups, or complete. -/
theorem exec_cases {i : Instr} {s t : State} (h : exec i s = .next t) :
    operandFetch i s = .faulted t ∨
    (∃ u, operandFetch i s = .completed u ∧ executeGroups (opcodeOf i) i.toRecord.arg u = .faulted t) ∨
    (∃ u v, operandFetch i s = .completed u ∧ executeGroups (opcodeOf i) i.toRecord.arg u = .completed v ∧
      t = v.complete (opcodeOf i == .hlt)) := by
  rw [exec_eq] at h
  cases hf : operandFetch i s with
  | faulted t' => rw [hf] at h; cases h; exact .inl rfl
  | completed u =>
    rw [hf, Group.andThen_completed] at h
    rcases Group.finish_cases h with ⟨v, hv, ht⟩ | hv
    · exact .inr (.inr ⟨u, v, rfl, hv, ht⟩)
    · exact .inr (.inl ⟨u, rfl, hv⟩)

/-- Everything a step can do: stop at the limit, fault at fetch, fault at decode, or run an instruction. -/
theorem step_cases {s t : State} (h : step s = .next t) :
    s.runState = .running ∧
    ((s.limit ≤ s.icount ∧ t = { s with runState := .wdogStopped }) ∨
     (s.icount < s.limit ∧ t = s.raiseFault .pcOutOfRange s.pc) ∨
     (∃ w e, s.icount < s.limit ∧ decode w = .error e ∧ t = { s with ir := w }.raiseFault .illegalInstruction 0#32) ∨
     (∃ w i, s.icount < s.limit ∧ 0 ≤ s.pc.toInt ∧ s.prog[s.pc.toInt.toNat]? = some w ∧ decode w = .ok i ∧
       exec i { s with ir := w } = .next t)) := by
  have hr : s.runState = .running := by
    unfold step at h
    split at h <;> first | assumption | cases h
  refine ⟨hr, ?_⟩
  rw [step_of_running hr, instructionCycle] at h
  split at h
  · cases h
    exact .inl ⟨‹_›, rfl⟩
  · have hl : s.icount < s.limit := by omega
    rcases fetch_cases s with ⟨w, hp, hw, hf⟩ | ⟨_, hf⟩
    · rw [hf] at h
      simp only [decodeAndExecute] at h
      cases hd : decode w with
      | ok i => rw [hd] at h; exact .inr (.inr (.inr ⟨w, i, hl, hp, hw, hd, h⟩))
      | error e => rw [hd] at h; cases h; exact .inr (.inr (.inl ⟨w, e, hl, hd, rfl⟩))
    · rw [hf] at h
      cases h
      exact .inr (.inl ⟨hl, rfl⟩)

/-! ### Runs of the host's core, step by step -/

theorem Core.run_of_next (M : Host.Core) (n : Nat) {s u : M.State} (h : M.step s = .next u) :
    M.run (n + 1) s = M.run n u := by
  simp only [Host.Core.run, h]

theorem Core.run_of_fault (M : Host.Core) (n : Nat) {s : M.State} {r : M.Fault} (h : M.step s = .fault r) :
    M.run (n + 1) s = .fault r := by
  simp only [Host.Core.run, h]

theorem Core.run_of_refused (M : Host.Core) (n : Nat) {s : M.State} {r : M.Refusal} (h : M.step s = .refused r) :
    M.run (n + 1) s = .refused r := by
  simp only [Host.Core.run, h]

/-- A run whose first step answers a next state goes on from it. -/
theorem run_of_next (n : Nat) {s u : State} (h : step s = .next u) :
    Sys2Proof.core.run (n + 1) s = Sys2Proof.core.run n u :=
  Core.run_of_next Sys2Proof.core n h

/-- A run whose first step stops has stopped so. -/
theorem run_of_fault (n : Nat) {s : State} {r : Fault} (h : step s = .fault r) :
    Sys2Proof.core.run (n + 1) s = .fault r :=
  Core.run_of_fault Sys2Proof.core n h

end Sys2Proof.Machine
end

