-- ==== Sys2Proof/Laws/Memory.lean ====
section
/-! SUPPORT. The cells of DMEM: reads after writes, and the canonical form that every operation keeps. -/

namespace Sys2Proof.Machine

/-- The head of a canonical list is listed for a reason, lies below the rest, and the rest is canonical. -/
theorem cellsWf_cons {k : Nat} {v : Word} {rest : List (Nat × Word)} :
    cellsWf ((k, v) :: rest) = true ↔ v ≠ unlistedWord ∧ (∀ c ∈ rest, k < c.1) ∧ cellsWf rest = true := by
  simp [cellsWf, and_assoc]

/-- An address below every listed one reads as unlisted. -/
theorem readCells_of_lt {l : List (Nat × Word)} {a : Nat} (h : ∀ c ∈ l, a < c.1) : readCells l a = unlistedWord := by
  induction l with
  | nil => rfl
  | cons c rest ih =>
    obtain ⟨k, v⟩ := c
    have hk : a < k := h (k, v) (by simp)
    rw [readCells, if_neg (by omega)]
    exact ih fun d hd => h d (by simp [hd])

/-- What a write lists is what was listed, and the address written. -/
theorem mem_writeCells {l : List (Nat × Word)} {a : Nat} {v : Word} {c : Nat × Word}
    (h : c ∈ writeCells l a v) : c.1 = a ∨ c ∈ l := by
  induction l with
  | nil =>
    rw [writeCells] at h
    split at h <;> simp_all
  | cons d rest ih =>
    obtain ⟨k, u⟩ := d
    rw [writeCells] at h
    split at h
    · rcases List.mem_cons.1 h with h | h
      · simp [h]
      · rcases ih h with h | h <;> simp [h]
    · split at h
      · split at h
        · simp [h]
        · rcases List.mem_cons.1 h with h | h <;> simp [h]
      · split at h
        · simp_all
        · rcases List.mem_cons.1 h with h | h <;> simp_all

/-- A read after a write, in a canonical list. -/
theorem readCells_writeCells {l : List (Nat × Word)} (a b : Nat) (v : Word) (h : cellsWf l = true) :
    readCells (writeCells l a v) b = if b = a then v else readCells l b := by
  induction l with
  | nil =>
    simp only [writeCells]
    split <;> rename_i hv
    · rw [hv, readCells, ite_self]
    · simp only [readCells, eq_comm (a := a)]
  | cons c rest ih =>
    obtain ⟨k, u⟩ := c
    obtain ⟨hu, hlt, hrest⟩ := cellsWf_cons.1 h
    simp only [writeCells]
    split <;> rename_i hka
    · simp only [readCells, ih hrest]
      split <;> split <;> first | rfl | omega
    · split <;> rename_i hka'
      · obtain rfl : a = k := hka'.symm
        have hun : readCells rest a = unlistedWord := readCells_of_lt hlt
        split <;> rename_i hv
        · by_cases hb : b = a
          · rw [hb, hun, hv, if_pos rfl]
          · rw [if_neg hb, readCells, if_neg (Ne.symm hb)]
        · by_cases hb : b = a
          · rw [hb, readCells, if_pos rfl, if_pos rfl]
          · rw [readCells, if_neg (Ne.symm hb), if_neg hb, readCells, if_neg (Ne.symm hb)]
      · have hun : readCells ((k, u) :: rest) a = unlistedWord := by
          refine readCells_of_lt fun d hd => ?_
          rcases List.mem_cons.1 hd with hd | hd
          · subst hd; simp only; omega
          · have := hlt d hd; omega
        split <;> rename_i hv
        · by_cases hb : b = a
          · rw [hb, hun, hv, if_pos rfl]
          · rw [if_neg hb]
        · by_cases hb : b = a
          · rw [hb, readCells, if_pos rfl]
          · rw [readCells, if_neg (Ne.symm hb), if_neg hb]

/-- A write keeps the canonical form. -/
theorem cellsWf_writeCells {l : List (Nat × Word)} (a : Nat) (v : Word) (h : cellsWf l = true) :
    cellsWf (writeCells l a v) = true := by
  induction l with
  | nil =>
    rw [writeCells]
    split <;> simp_all [cellsWf]
  | cons c rest ih =>
    obtain ⟨k, u⟩ := c
    obtain ⟨hu, hlt, hrest⟩ := cellsWf_cons.1 h
    rw [writeCells]
    split
    · refine cellsWf_cons.2 ⟨hu, fun c hc => ?_, ih hrest⟩
      rcases mem_writeCells hc with hc | hc
      · omega
      · exact hlt c hc
    · split
      · subst_vars
        split
        · exact hrest
        · exact cellsWf_cons.2 ⟨‹_›, hlt, hrest⟩
      · split
        · exact h
        · refine cellsWf_cons.2 ⟨‹_›, fun c hc => ?_, h⟩
          rcases List.mem_cons.1 hc with hc | hc
          · subst hc; simp only; omega
          · have := hlt c hc; omega

/-- Two canonical lists that read alike are the same list. -/
theorem cells_ext {l m : List (Nat × Word)} (hl : cellsWf l = true) (hm : cellsWf m = true)
    (h : ∀ a, readCells l a = readCells m a) : l = m := by
  induction l generalizing m with
  | nil =>
    cases m with
    | nil => rfl
    | cons d rest =>
      obtain ⟨k, u⟩ := d
      have := h k
      simp [readCells] at this
      exact absurd this.symm (cellsWf_cons.1 hm).1
  | cons c rest ih =>
    obtain ⟨k, u⟩ := c
    obtain ⟨hu, hlt, hrest⟩ := cellsWf_cons.1 hl
    cases m with
    | nil =>
      have := h k
      simp [readCells] at this
      exact absurd this hu
    | cons d rest' =>
      obtain ⟨k', u'⟩ := d
      obtain ⟨hu', hlt', hrest'⟩ := cellsWf_cons.1 hm
      have hk : k = k' := by
        rcases Nat.lt_trichotomy k k' with hkk | hkk | hkk
        · have h0 := h k
          rw [readCells, if_pos rfl, readCells, if_neg (by omega), readCells_of_lt fun c hc => by have := hlt' c hc; omega] at h0
          exact absurd h0 hu
        · exact hkk
        · have h0 := h k'
          rw [readCells, if_neg (by omega), readCells_of_lt (fun c hc => by have := hlt c hc; omega), readCells, if_pos rfl] at h0
          exact absurd h0.symm hu'
      subst hk
      have huu : u = u' := by simpa [readCells] using h k
      subst huu
      congr 1
      refine ih hrest hrest' fun a => ?_
      by_cases ha : k = a
      · subst ha
        rw [readCells_of_lt hlt, readCells_of_lt hlt']
      · simpa [readCells, ha] using h a

/-- The addresses that a segment lists. -/
theorem mem_segmentCells {seg : List Word} {k : Nat} {c : Nat × Word} (h : c ∈ segmentCells k seg) :
    k ≤ c.1 ∧ c.1 < k + seg.length := by
  induction seg generalizing k with
  | nil => simp [segmentCells] at h
  | cons v rest ih =>
    rw [segmentCells] at h
    simp only [List.length_cons]
    split at h
    · have := ih h; omega
    · rcases List.mem_cons.1 h with h | h
      · subst h; simp
      · have := ih h; omega

theorem cellsWf_segmentCells (seg : List Word) (k : Nat) : cellsWf (segmentCells k seg) = true := by
  induction seg generalizing k with
  | nil => rfl
  | cons v rest ih =>
    rw [segmentCells]
    split
    · exact ih _
    · exact cellsWf_cons.2 ⟨‹_›, fun c hc => (mem_segmentCells hc).1, ih _⟩

theorem readCells_segmentCells (seg : List Word) (k a : Nat) :
    readCells (segmentCells k seg) (k + a) = (seg[a]?).getD unlistedWord := by
  induction seg generalizing k a with
  | nil => simp [segmentCells, readCells]
  | cons v rest ih =>
    rw [segmentCells]
    cases a with
    | zero =>
      split
      · rw [readCells_of_lt fun c hc => by have := mem_segmentCells hc; omega]
        simp_all
      · simp [readCells]
    | succ a =>
      have := ih (k + 1) a
      rw [show k + 1 + a = k + (a + 1) by omega] at this
      split
      · simpa using this
      · rw [readCells, if_neg (by omega)]
        simpa using this

end Sys2Proof.Machine
end

