-- ==== Sys2Proof/Laws/PerInstr.lean ====
section
/-! SUPPORT. Lemmas per constructor of Instr. Family `EncodedFields`: the word of an instruction carries its opcode
and mode numbers, reserved bits 00 and its argument in their places (R83 to R86, R92). -/

namespace Sys2Proof.Laws

/-- What the word of an instruction holds in each field. -/
def EncodedFields.Statement (i : Instr) : Prop :=
  InstrWord.opcodeField (encode i) = (i.toRecord.opcode).code ∧ InstrWord.modeField (encode i) = (i.toRecord.mode).code ∧
  InstrWord.rsvField (encode i) = 0#2 ∧ InstrWord.argField (encode i) = Word.ofInt i.toRecord.arg

theorem EncodedFields.ldImmediate (arg : Int) : EncodedFields.Statement (.ldImmediate arg) := Record.encode_fields _
theorem EncodedFields.ldDirect (arg : Int) : EncodedFields.Statement (.ldDirect arg) := Record.encode_fields _
theorem EncodedFields.ldIndirect (arg : Int) : EncodedFields.Statement (.ldIndirect arg) := Record.encode_fields _
theorem EncodedFields.stImmediate (arg : Int) : EncodedFields.Statement (.stImmediate arg) := Record.encode_fields _
theorem EncodedFields.stDirect (arg : Int) : EncodedFields.Statement (.stDirect arg) := Record.encode_fields _
theorem EncodedFields.stIndirect (arg : Int) : EncodedFields.Statement (.stIndirect arg) := Record.encode_fields _
theorem EncodedFields.addImmediate (arg : Int) : EncodedFields.Statement (.addImmediate arg) := Record.encode_fields _
theorem EncodedFields.addDirect (arg : Int) : EncodedFields.Statement (.addDirect arg) := Record.encode_fields _
theorem EncodedFields.addIndirect (arg : Int) : EncodedFields.Statement (.addIndirect arg) := Record.encode_fields _
theorem EncodedFields.subImmediate (arg : Int) : EncodedFields.Statement (.subImmediate arg) := Record.encode_fields _
theorem EncodedFields.subDirect (arg : Int) : EncodedFields.Statement (.subDirect arg) := Record.encode_fields _
theorem EncodedFields.subIndirect (arg : Int) : EncodedFields.Statement (.subIndirect arg) := Record.encode_fields _
theorem EncodedFields.divImmediate (arg : Int) : EncodedFields.Statement (.divImmediate arg) := Record.encode_fields _
theorem EncodedFields.divDirect (arg : Int) : EncodedFields.Statement (.divDirect arg) := Record.encode_fields _
theorem EncodedFields.divIndirect (arg : Int) : EncodedFields.Statement (.divIndirect arg) := Record.encode_fields _
theorem EncodedFields.cmpImmediate (arg : Int) : EncodedFields.Statement (.cmpImmediate arg) := Record.encode_fields _
theorem EncodedFields.cmpDirect (arg : Int) : EncodedFields.Statement (.cmpDirect arg) := Record.encode_fields _
theorem EncodedFields.cmpIndirect (arg : Int) : EncodedFields.Statement (.cmpIndirect arg) := Record.encode_fields _
theorem EncodedFields.jmp (mode : Mode) (arg : Int) : EncodedFields.Statement (.jmp mode arg) := Record.encode_fields _
theorem EncodedFields.jz (mode : Mode) (arg : Int) : EncodedFields.Statement (.jz mode arg) := Record.encode_fields _
theorem EncodedFields.jnz (mode : Mode) (arg : Int) : EncodedFields.Statement (.jnz mode arg) := Record.encode_fields _
theorem EncodedFields.jn (mode : Mode) (arg : Int) : EncodedFields.Statement (.jn mode arg) := Record.encode_fields _
theorem EncodedFields.jle (mode : Mode) (arg : Int) : EncodedFields.Statement (.jle mode arg) := Record.encode_fields _
theorem EncodedFields.jge (mode : Mode) (arg : Int) : EncodedFields.Statement (.jge mode arg) := Record.encode_fields _
theorem EncodedFields.inp (mode : Mode) (arg : Int) : EncodedFields.Statement (.inp mode arg) := Record.encode_fields _
theorem EncodedFields.out (mode : Mode) (arg : Int) : EncodedFields.Statement (.out mode arg) := Record.encode_fields _
theorem EncodedFields.outc (mode : Mode) (arg : Int) : EncodedFields.Statement (.outc mode arg) := Record.encode_fields _
theorem EncodedFields.hlt (mode : Mode) (arg : Int) : EncodedFields.Statement (.hlt mode arg) := Record.encode_fields _

end Sys2Proof.Laws
end

