-- ==== Sys2Proof/Tests/Slice0.lean ====
section
/-! SUPPORT. The model's own tests. Expected values are those of spec/95_test_vectors.md and of R93, or worked out by
hand from the cited rule; then, for each obligation with hypotheses, a witness that meets them. -/

namespace Sys2Proof.Tests

open Sys2Proof.Machine

/-- The next state of an outcome, as comparable data. -/
def after : Host.Outcome State Fault Refusal → Option State
  | .next s => some s
  | .fault _ => none
  | .refused _ => none

/-- The stop of an outcome, as comparable data. -/
def stop : Host.Outcome State Fault Refusal → Option Fault
  | .next _ => none
  | .fault f => some f
  | .refused _ => none

/-- The reset state with ACC and the non-zero words of DMEM set, the form of the vectors' start states. -/
def start (acc : Int) (cells : List (Nat × Word)) : State :=
  { State.reset with acc := Word.ofInt acc, dmem := ⟨cells⟩ }

/-- The reset state with a program. -/
def booted (prog : List InstrWord) : State := { State.reset with prog := prog }

/-! ### Well-formedness refuses -/

theorem test_wf_refuses_argument_above_max : (Instr.ldImmediate 2147483648).wf = false := by decide

theorem test_wf_refuses_argument_below_min : (Instr.jmp .absent (-2147483649)).wf = false := by decide

theorem test_wf_refuses_record_without_needed_mode : (Record.mk .st .absent 3).wf = false := by decide

theorem test_decode_refuses_reserved_bits :
    decode 0x0500000005#40 = .error .reservedBits ∧ decode 0xFFFFFFFFFF#40 = .error .reservedBits := by decide

theorem test_decode_refuses_missing_mode :
    decode 0x5000000001#40 = .error .missingMode ∧ decode 0x1000000003#40 = .error .missingMode := by decide

/-- The parameters of R5's defaults, with nothing loaded. -/
def defaults : LoadParams :=
  { prog := [], dataSeg := [], input := inputOfText [], memSize := 256, limit := 1000, rem := .floored }

/-- Why a load is refused. -/
def refusalOf (p : LoadParams) : Option LoadRefusal :=
  match load p with
  | .ok _ => none
  | .error e => some e

theorem test_load_refuses_memory_size :
    refusalOf { defaults with memSize := 0 } = some .memSizeRange ∧
    refusalOf { defaults with memSize := 2147483649 } = some .memSizeRange := by decide

theorem test_load_refuses_data_segment :
    refusalOf { defaults with memSize := 1, dataSeg := [0, 0] } = some .dataSegmentTooLong ∧
    refusalOf { defaults with dataSeg := [2147483648] } = some .dataWordRange := by decide

theorem test_load_refuses_argument :
    refusalOf { defaults with prog := [.record ⟨.jmp, .absent, -2147483649⟩] } = some .argumentRange := by decide

theorem test_load_refuses_limit : refusalOf { defaults with limit := 4294967296 } = some .limitRange := by decide

/-! ### Decoding: each row's word written out field by field (R83 to R85), as in R93 and 95_test_vectors.md 2.1 -/

theorem test_decode_ld :
    decode (0b0000#4 ++ 0b01#2 ++ 0b00#2 ++ 0x00000005#32) = .ok (.ldImmediate 5) ∧
    decode (0b0000#4 ++ 0b10#2 ++ 0b00#2 ++ 0x0000000B#32) = .ok (.ldDirect 11) ∧
    decode (0b0000#4 ++ 0b11#2 ++ 0b00#2 ++ 0x00000000#32) = .ok (.ldIndirect 0) := by decide

theorem test_decode_st :
    decode (0b0001#4 ++ 0b01#2 ++ 0b00#2 ++ 0x0000000A#32) = .ok (.stImmediate 10) ∧
    decode (0b0001#4 ++ 0b10#2 ++ 0b00#2 ++ 0x00000003#32) = .ok (.stDirect 3) ∧
    decode (0b0001#4 ++ 0b11#2 ++ 0b00#2 ++ 0x00000003#32) = .ok (.stIndirect 3) := by decide

theorem test_decode_add :
    decode (0b0010#4 ++ 0b01#2 ++ 0b00#2 ++ 0xFFFFFFFB#32) = .ok (.addImmediate (-5)) ∧
    decode (0b0010#4 ++ 0b10#2 ++ 0b00#2 ++ 0x0000000A#32) = .ok (.addDirect 10) ∧
    decode (0b0010#4 ++ 0b11#2 ++ 0b00#2 ++ 0x00000004#32) = .ok (.addIndirect 4) := by decide

theorem test_decode_sub :
    decode (0b0011#4 ++ 0b01#2 ++ 0b00#2 ++ 0x80000000#32) = .ok (.subImmediate (-2147483648)) ∧
    decode (0b0011#4 ++ 0b10#2 ++ 0b00#2 ++ 0x00000004#32) = .ok (.subDirect 4) ∧
    decode (0b0011#4 ++ 0b11#2 ++ 0b00#2 ++ 0x7FFFFFFF#32) = .ok (.subIndirect 2147483647) := by decide

theorem test_decode_div :
    decode (0b0100#4 ++ 0b01#2 ++ 0b00#2 ++ 0x00000003#32) = .ok (.divImmediate 3) ∧
    decode (0b0100#4 ++ 0b10#2 ++ 0b00#2 ++ 0x00000004#32) = .ok (.divDirect 4) ∧
    decode (0b0100#4 ++ 0b11#2 ++ 0b00#2 ++ 0x00000001#32) = .ok (.divIndirect 1) := by decide

theorem test_decode_cmp :
    decode (0b0101#4 ++ 0b01#2 ++ 0b00#2 ++ 0x00000030#32) = .ok (.cmpImmediate 48) ∧
    decode (0b0101#4 ++ 0b10#2 ++ 0b00#2 ++ 0x00000001#32) = .ok (.cmpDirect 1) ∧
    decode (0b0101#4 ++ 0b11#2 ++ 0b00#2 ++ 0x00000004#32) = .ok (.cmpIndirect 4) := by decide

theorem test_decode_jumps :
    decode (0b0110#4 ++ 0b11#2 ++ 0b00#2 ++ 0x00000007#32) = .ok (.jmp .indirect 7) ∧
    decode (0b0111#4 ++ 0b00#2 ++ 0b00#2 ++ 0x00000004#32) = .ok (.jz .absent 4) ∧
    decode (0b1000#4 ++ 0b00#2 ++ 0b00#2 ++ 0x00000002#32) = .ok (.jnz .absent 2) ∧
    decode (0b1001#4 ++ 0b00#2 ++ 0b00#2 ++ 0x00000009#32) = .ok (.jn .absent 9) ∧
    decode (0b1010#4 ++ 0b00#2 ++ 0b00#2 ++ 0x00000003#32) = .ok (.jle .absent 3) ∧
    decode (0b1011#4 ++ 0b00#2 ++ 0b00#2 ++ 0xFFFFFFFF#32) = .ok (.jge .absent (-1)) := by decide

theorem test_decode_no_operand :
    decode (0b1100#4 ++ 0b00#2 ++ 0b00#2 ++ 0xDEADBEEF#32) = .ok (.inp .absent (-559038737)) ∧
    decode (0b1101#4 ++ 0b00#2 ++ 0b00#2 ++ 0x00000000#32) = .ok (.out .absent 0) ∧
    decode (0b1110#4 ++ 0b00#2 ++ 0b00#2 ++ 0x00000000#32) = .ok (.outc .absent 0) ∧
    decode (0b1111#4 ++ 0b11#2 ++ 0b00#2 ++ 0x12345678#32) = .ok (.hlt .indirect 305419896) := by decide

theorem test_encode : encode (.stImmediate 10) = 0x140000000A#40 ∧ encode (.ldImmediate (-1)) = 0x04FFFFFFFF#40 := by
  decide

theorem test_decodeTableWord :
    decodeTableWord 40 0x280000000A = some (.addDirect 10) ∧ decodeTableWord 40 0 = none := by decide

theorem test_assembly : (Instr.ldIndirect 0).assembly = "LD 0, INDIRECT" ∧ (Instr.hlt .direct 9).assembly = "HLT" := by
  decide

/-! ### One step of each instruction (95_test_vectors.md 2.2 to 2.7) -/

/-- The start state of 2.2. -/
def loadStart : State := start 9 [(3, 8#32), (5, 5#32), (8, 0xFFFFFFFC#32)]

theorem test_ldImmediate : after (exec (.ldImmediate (-7)) loadStart) =
    some { loadStart with acc := 0xFFFFFFF9#32, dr := 0xFFFFFFF9#32, alu := 0x1FFFFFFF9#33, pc := 1#32, tick := 2, icount := 1 } := by
  decide

theorem test_ldDirect : after (exec (.ldDirect 255) loadStart) =
    some { loadStart with acc := 0#32, da := 255#32, pc := 1#32, tick := 3, icount := 1 } := by decide

theorem test_ldDirect_bounds : after (exec (.ldDirect 256) loadStart) =
    some { loadStart with runState := .faulted, faultCause := .outOfMemoryAddress, faultInfo := 256#32 } := by decide

theorem test_ldIndirect : after (exec (.ldIndirect 3) loadStart) =
    some { loadStart with acc := 0xFFFFFFFC#32, dr := 0xFFFFFFFC#32, alu := 0x1FFFFFFFC#33, da := 8#32, pc := 1#32,
                          tick := 5, icount := 1 } := by decide

theorem test_ldIndirect_bad_pointer : after (exec (.ldIndirect 8) loadStart) =
    some { loadStart with dr := 0xFFFFFFFC#32, da := 8#32, tick := 2, runState := .faulted,
                          faultCause := .outOfMemoryAddress, faultInfo := 0xFFFFFFFC#32 } := by decide

/-- The start state of 2.3. -/
def storeStart : State := start 42 [(3, 8#32), (6, 6#32), (8, 20#32), (9, 300#32)]

theorem test_stImmediate : after (exec (.stImmediate 0) storeStart) =
    some { storeStart with dmem := ⟨[(0, 42#32), (3, 8#32), (6, 6#32), (8, 20#32), (9, 300#32)]⟩, pc := 1#32, tick := 3,
                           icount := 1 } := by decide

theorem test_stImmediate_bounds : after (exec (.stImmediate 256) storeStart) =
    some { storeStart with dr := 256#32, tick := 1, runState := .faulted, faultCause := .outOfMemoryAddress,
                           faultInfo := 256#32 } := by decide

theorem test_stDirect : after (exec (.stDirect 6) storeStart) =
    some { storeStart with dmem := ⟨[(3, 8#32), (6, 42#32), (8, 20#32), (9, 300#32)]⟩, da := 6#32, dr := 6#32, pc := 1#32,
                           tick := 4, icount := 1 } := by decide

theorem test_stDirect_bad_pointer : after (exec (.stDirect 9) storeStart) =
    some { storeStart with da := 9#32, dr := 300#32, tick := 2, runState := .faulted,
                           faultCause := .outOfMemoryAddress, faultInfo := 300#32 } := by decide

theorem test_stIndirect : after (exec (.stIndirect 3) storeStart) =
    some { storeStart with dmem := ⟨[(3, 8#32), (6, 6#32), (8, 20#32), (9, 300#32), (20, 42#32)]⟩, da := 20#32, dr := 20#32,
                           pc := 1#32, tick := 6, icount := 1 } := by decide

/-- The start state of the last paragraph of 2.4. -/
def sumStart : State := start 10 [(4, 7#32), (7, 100#32)]

theorem test_addImmediate_flips : after (exec (.addImmediate 2) (start 2147483647 [])) =
    some { start (-2147483648) [] with alu := 2147483649#33, dr := 2#32, ovf := true, pc := 1#32, tick := 3, icount := 1 } := by
  decide

theorem test_addImmediate_flips_at_the_least_sum : after (exec (.addImmediate (-2147483648)) (start (-2147483648) [])) =
    some { start 2147483647 [] with alu := 0x100000000#33, dr := 0x80000000#32, ovf := true, pc := 1#32, tick := 3,
                                    icount := 1 } := by decide

theorem test_addDirect : after (exec (.addDirect 4) sumStart) =
    some { sumStart with acc := 17#32, alu := 17#33, dr := 7#32, da := 4#32, pc := 1#32, tick := 4, icount := 1 } := by decide

theorem test_addIndirect : after (exec (.addIndirect 4) sumStart) =
    some { sumStart with acc := 110#32, alu := 110#33, dr := 100#32, da := 7#32, pc := 1#32, tick := 6, icount := 1 } := by
  decide

theorem test_subImmediate_flips : after (exec (.subImmediate (-2147483648)) (start 2147483647 [])) =
    some { start (-2147483648) [] with alu := 4294967295#33, dr := 0x80000000#32, ovf := true, pc := 1#32, tick := 3,
                                       icount := 1 } := by decide

theorem test_subDirect : after (exec (.subDirect 4) sumStart) =
    some { sumStart with acc := 3#32, alu := 3#33, dr := 7#32, da := 4#32, pc := 1#32, tick := 4, icount := 1 } := by decide

theorem test_subIndirect : after (exec (.subIndirect 4) sumStart) =
    some { sumStart with acc := 0xFFFFFFA6#32, alu := 0x1FFFFFFA6#33, dr := 100#32, da := 7#32, pc := 1#32, tick := 6,
                         icount := 1 } := by decide

theorem test_cmpImmediate_flips : after (exec (.cmpImmediate 1) (start (-2147483648) [])) =
    some { start 2147483647 [] with alu := 0x17FFFFFFF#33, dr := 1#32, ovf := true, pc := 1#32, tick := 3, icount := 1 } := by
  decide

theorem test_cmpDirect : after (exec (.cmpDirect 4) sumStart) =
    some { sumStart with acc := 3#32, alu := 3#33, dr := 7#32, da := 4#32, pc := 1#32, tick := 4, icount := 1 } := by decide

theorem test_cmpIndirect : after (exec (.cmpIndirect 4) sumStart) =
    some { sumStart with acc := 0xFFFFFFA6#32, alu := 0x1FFFFFFA6#33, dr := 100#32, da := 7#32, pc := 1#32, tick := 6,
                         icount := 1 } := by decide

theorem test_divImmediate_is_floored : after (exec (.divImmediate 3) (start (-7) [])) =
    some { start 2 [] with alu := 2#33, dr := 3#32, pc := 1#32, tick := 3, icount := 1 } := by decide

theorem test_divImmediate_by_zero : after (exec (.divImmediate 0) (start 7 [])) =
    some { start 7 [] with tick := 1, runState := .faulted, faultCause := .divisionByZero } := by decide

theorem test_divDirect : after (exec (.divDirect 4) (start 7 [(4, 4#32)])) =
    some { start 3 [(4, 4#32)] with alu := 3#33, dr := 4#32, da := 4#32, pc := 1#32, tick := 4, icount := 1 } := by decide

theorem test_divIndirect : after (exec (.divIndirect 4) (start 3 [(4, 9#32), (9, 0xFFFFFFF9#32)])) =
    some { start (-4) [(4, 9#32), (9, 0xFFFFFFF9#32)] with
      alu := 0x1FFFFFFFC#33, dr := 0xFFFFFFF9#32, da := 9#32, pc := 1#32, tick := 6, icount := 1 } := by decide

theorem test_remainder_conventions :
    remainder .floored 7 (-3) = -2 ∧ remainder .truncated 7 (-3) = 1 ∧ remainder .euclidean 7 (-3) = 1 ∧
    remainder .floored (-7) (-3) = -1 ∧ remainder .truncated (-7) (-3) = -1 ∧ remainder .euclidean (-7) (-3) = 2 := by decide

/-- A jump's PC from PC = 7 (the table of 2.6), for ACC = -1, 0 and 1. -/
def jumpsTo (i : Instr) : List (Option Word) :=
  [-1, 0, 1].map fun acc => (after (exec i { start acc [] with pc := 7#32 })).map State.pc

theorem test_jmp : jumpsTo (.jmp .indirect 3) = [some 3#32, some 3#32, some 3#32] := by decide
theorem test_jz : jumpsTo (.jz .absent 3) = [some 8#32, some 3#32, some 8#32] := by decide
theorem test_jnz : jumpsTo (.jnz .absent 3) = [some 3#32, some 8#32, some 3#32] := by decide
theorem test_jn : jumpsTo (.jn .absent 3) = [some 8#32, some 3#32, some 3#32] := by decide
theorem test_jle : jumpsTo (.jle .absent 3) = [some 8#32, some 8#32, some 3#32] := by decide
theorem test_jge : jumpsTo (.jge .absent 3) = [some 3#32, some 8#32, some 8#32] := by decide

theorem test_jmp_negative_target : after (exec (.jmp .absent (-1)) State.reset) =
    some { State.reset with pc := 0xFFFFFFFF#32, tick := 1, icount := 1 } := by decide

theorem test_inp : after (exec (.inp .absent 0) { start (-5) [] with input := [1114111, 0] }) =
    some { start 1114111 [] with input := [1114111, 0], inCur := 1, pc := 1#32, tick := 1, icount := 1 } := by decide

theorem test_inp_past_the_end : after (exec (.inp .absent 0) { State.reset with input := [65, 0], inCur := 2 }) =
    some { State.reset with input := [65, 0], inCur := 2, runState := .faulted, faultCause := .endOfInput } := by decide

theorem test_out : after (exec (.out .absent 0) { start 0 [] with output := [72] }) =
    some { start 0 [] with output := [72, 0], pc := 1#32, tick := 1, icount := 1 } := by decide

theorem test_out_of_range : after (exec (.out .absent 0) (start 1114112 [])) =
    some { start 1114112 [] with runState := .faulted, faultCause := .outputRange, faultInfo := 1114112#32 } := by decide

theorem test_outc : after (exec (.outc .absent 0) (start 1114111 [])) =
    some { start 1114111 [] with output := [1114111], pc := 1#32, tick := 1, icount := 1 } := by decide

theorem test_outc_of_a_negative : after (exec (.outc .absent 0) (start (-1) [])) =
    some { start (-1) [] with runState := .faulted, faultCause := .outputRange, faultInfo := 0xFFFFFFFF#32 } := by decide

theorem test_hlt : after (exec (.hlt .indirect 305419896) { State.reset with pc := 2#32, icount := 2, tick := 3 }) =
    some { State.reset with pc := 2#32, icount := 3, tick := 4, runState := .halted } := by decide

/-! ### The cycle (95_test_vectors.md 2.8, 2.9) -/

theorem test_step_illegal_word : after (step (booted [0x0000000000#40])) =
    some { booted [0x0000000000#40] with runState := .faulted, faultCause := .illegalInstruction } := by decide

theorem test_step_empty_program : after (step State.reset) =
    some { State.reset with runState := .faulted, faultCause := .pcOutOfRange } := by decide

theorem test_step_negative_pc : after (step { booted [0xF000000000#40] with pc := 0xFFFFFFFF#32 }) =
    some { booted [0xF000000000#40] with
      pc := 0xFFFFFFFF#32, runState := .faulted, faultCause := .pcOutOfRange, faultInfo := 0xFFFFFFFF#32 } := by decide

theorem test_step_limit_zero : after (step { State.reset with limit := 0 }) =
    some { State.reset with limit := 0, runState := .wdogStopped } := by decide

theorem test_step_watchdog : after (step { booted [0x6000000000#40] with limit := 1 }) =
    some { booted [0x6000000000#40] with limit := 1, ir := 0x6000000000#40, tick := 1, icount := 1, runState := .wdogStopped } := by
  decide

theorem test_step_halt_wins : (after (step { booted [0xF000000000#40] with limit := 1 })).map State.runState = some .halted := by
  decide

theorem test_step_terminal :
    stop (step { State.reset with runState := .halted }) = some .noStepHalted ∧
    stop (step { State.reset with runState := .faulted }) = some .noStepFaulted ∧
    stop (step { State.reset with runState := .wdogStopped }) = some .noStepWdogStopped := by decide

theorem test_withFetchWord : after (step (State.reset.withFetchWord 40 0x0400000005)) =
    some { booted [0x0400000005#40] with
      acc := 5#32, dr := 5#32, alu := 5#33, ir := 0x0400000005#40, pc := 1#32, tick := 2, icount := 1 } := by decide

theorem test_numbers : FaultCause.outputRange.number = 6#3 ∧ RunState.wdogStopped.number = 3#2 := by decide

theorem test_load_defaults : load defaults = .ok State.reset := by decide

theorem test_load_record_and_data :
    (load { defaults with prog := [.record ⟨.ld, .immediate, 5⟩, .word 0xD000000000#40], dataSeg := [0, -2] }) =
    .ok { booted [0x0400000005#40, 0xD000000000#40] with dmem := ⟨[(1, 0xFFFFFFFE#32)]⟩ } := by decide

/-! ### Witnesses: a state and operands meeting an obligation's hypotheses, for each of its clauses -/

theorem witness_DecodeOfEncodeIsTheInstruction :
    (Instr.ldImmediate (-2147483648)).wf = true ∧ (Instr.hlt .indirect 2147483647).wf = true := by decide

theorem witness_EncodeOfDecodeIsTheWord : decode 0x0C00000000#40 = .ok (.ldIndirect 0) := by decide

theorem witness_DecodedFieldsAreTheWordsBits :
    decode 0x047FFFFFFF#40 = .ok (.ldImmediate 2147483647) ∧ decode 0xF480000000#40 = .ok (.hlt .immediate (-2147483648)) := by
  decide

theorem witness_StepRunsTheDecodedInstruction :
    let s := { booted [0x6000000000#40] with limit := 1 }
    s.runState = .running ∧ s.icount < s.limit ∧ 0 ≤ s.pc.toInt ∧ s.prog[s.pc.toInt.toNat]? = some 0x6000000000#40 ∧
    decode 0x6000000000#40 = .ok (.jmp .absent 0) := by decide

theorem witness_StepAtTheLimitOnlyStops :
    let s := { State.reset with limit := 0 }
    s.runState = .running ∧ s.limit ≤ s.icount := by decide

theorem witness_PcOutsideTheProgramFaults :
    (let s := { booted [0xF000000000#40] with pc := 0xFFFFFFFF#32 }
     s.runState = .running ∧ s.icount < s.limit ∧ s.pc.toInt < 0) ∧
    (let s := { booted [0xF000000000#40] with pc := 1#32 }
     s.runState = .running ∧ s.icount < s.limit ∧ (s.prog.length : Int) ≤ s.pc.toInt) := by decide

theorem witness_IllegalWordFaults :
    let s := booted [0xF100000000#40]
    s.runState = .running ∧ s.icount < s.limit ∧ 0 ≤ s.pc.toInt ∧ s.prog[s.pc.toInt.toNat]? = some 0xF100000000#40 ∧
    decode 0xF100000000#40 = .error .reservedBits := by decide

/-- One clause after another, at the ends of the address range of `loadStart`: cell 0 points to 0, cell 8 to -4. -/
theorem witness_OperandFetchByMode :
    fitsWord 255 = true ∧ loadStart.AddressLegal 0 ∧ loadStart.AddressLegal 255 ∧
    loadStart.AddressLegal (loadStart.cell 255) ∧
    ¬ loadStart.AddressLegal 256 ∧ ¬ loadStart.AddressLegal (-1) ∧
    (loadStart.AddressLegal 8 ∧ ¬ loadStart.AddressLegal (loadStart.cell 8)) := by
  unfold State.AddressLegal
  decide

theorem witness_MemReadGivesTheLatestWrite :
    (storeStart.dmem.wf = true ∧ 0 ≤ storeStart.da.toInt) ∧
    (∃ t, latchDataAddress 255#32 storeStart = .completed t ∧ t.da = 255#32) :=
  ⟨by decide, _, rfl, by decide⟩

theorem witness_MemoryKeepsItsCanonicalForm :
    (Memory.mk [(0, 1#32), (255, 2#32)]).wf = true ∧ (Memory.mk [(0, 1#32), (255, 2#32)]).below 256 = true ∧
    (0 < 256) ∧ (Memory.zero).wf = true ∧ (∀ a, Memory.zero.read a = (Memory.ofSegment [0#32]).read a) :=
  ⟨by decide, by decide, by decide, by decide, fun _ => rfl⟩

theorem witness_LdLoadsTheOperand :
    (opcodeOf (.ldIndirect 5) = .ld ∧ (Instr.ldIndirect 5).wf = true ∧ OperandLegal loadStart (.ldIndirect 5)) ∧
    (opcodeOf (.ldDirect 255) = .ld ∧ (Instr.ldDirect 255).wf = true ∧ OperandLegal loadStart (.ldDirect 255)) ∧
    (opcodeOf (.ldImmediate 256) = .ld ∧ (Instr.ldImmediate 256).wf = true ∧ OperandLegal loadStart (.ldImmediate 256)) := by
  simp only [OperandLegal, State.AddressLegal, Instr.toRecord]
  decide

theorem witness_StStoresAccAtTheOperand :
    (opcodeOf (.stIndirect 3) = .st ∧ (Instr.stIndirect 3).wf = true ∧ storeStart.dmem.wf = true ∧
      OperandLegal storeStart (.stIndirect 3) ∧ storeStart.AddressLegal (operandOf storeStart (.stIndirect 3))) ∧
    (opcodeOf (.stDirect 6) = .st ∧ (Instr.stDirect 6).wf = true ∧
      OperandLegal storeStart (.stDirect 6) ∧ storeStart.AddressLegal (operandOf storeStart (.stDirect 6))) ∧
    (opcodeOf (.stImmediate 255) = .st ∧ (Instr.stImmediate 255).wf = true ∧
      OperandLegal storeStart (.stImmediate 255) ∧ storeStart.AddressLegal (operandOf storeStart (.stImmediate 255))) := by
  simp only [OperandLegal, operandOf, State.AddressLegal, Instr.toRecord]
  decide

theorem witness_StOfAnIllegalAddressFaults :
    (opcodeOf (.stImmediate 256) = .st ∧ (Instr.stImmediate 256).wf = true ∧ OperandLegal storeStart (.stImmediate 256) ∧
      ¬ storeStart.AddressLegal (operandOf storeStart (.stImmediate 256))) ∧
    (opcodeOf (.stDirect 9) = .st ∧ (Instr.stDirect 9).wf = true ∧ OperandLegal storeStart (.stDirect 9) ∧
      ¬ storeStart.AddressLegal (operandOf storeStart (.stDirect 9))) := by
  simp only [OperandLegal, operandOf, State.AddressLegal, Instr.toRecord]
  decide

theorem witness_IllegalOperandAddressFaults :
    ((opcodeOf (.addDirect 256)).isMemoryOperand = true ∧ (Instr.addDirect 256).wf = true ∧
      (Instr.addDirect 256).toRecord.mode = .direct ∧ ¬ loadStart.AddressLegal (Instr.addDirect 256).toRecord.arg) ∧
    ((opcodeOf (.cmpIndirect (-1))).isMemoryOperand = true ∧ (Instr.cmpIndirect (-1)).wf = true ∧
      (Instr.cmpIndirect (-1)).toRecord.mode = .indirect ∧
      ¬ loadStart.AddressLegal (Instr.cmpIndirect (-1)).toRecord.arg) ∧
    ((opcodeOf (.divIndirect 8)).isMemoryOperand = true ∧ (Instr.divIndirect 8).wf = true ∧
      (Instr.divIndirect 8).toRecord.mode = .indirect ∧ loadStart.AddressLegal (Instr.divIndirect 8).toRecord.arg ∧
      ¬ loadStart.AddressLegal (loadStart.cell (Instr.divIndirect 8).toRecord.arg)) := by
  unfold State.AddressLegal
  decide

theorem witness_LoadThenStoreIsNoOpOnMemory :
    loadStart.dmem.wf = true ∧ fitsWord 255 = true ∧ loadStart.AddressLegal 255 := by
  unfold State.AddressLegal
  decide

/-- Each clause: a flip up, a flip down, a value in range, an instruction that leaves ACC alone, IN. -/
theorem witness_AccIsTheFlipWrapOfTheAlu :
    (∃ t, exec (.addImmediate 1) (start 2147483647 []) = .next t ∧ t.icount = 1 ∧ t.alu.toInt > 2147483647) ∧
    (∃ t, exec (.subImmediate 1) (start (-2147483648) []) = .next t ∧ t.icount = 1 ∧ t.alu.toInt < -2147483648) ∧
    (∃ t, exec (.ldImmediate 2147483647) State.reset = .next t ∧ t.icount = 1 ∧ t.alu.toInt = 2147483647) ∧
    (∃ t, exec (.stImmediate 0) State.reset = .next t ∧ t.icount = 1) ∧
    (∃ t, exec (.inp .absent 0) State.reset = .next t ∧ t.icount = 1) :=
  ⟨⟨_, rfl, by decide⟩, ⟨_, rfl, by decide⟩, ⟨_, rfl, by decide⟩, ⟨_, rfl, by decide⟩, ⟨_, rfl, by decide⟩⟩

theorem witness_AddAddsTheOperand :
    (opcodeOf (.addIndirect 4) = .add ∧ (Instr.addIndirect 4).wf = true ∧ OperandLegal sumStart (.addIndirect 4)) ∧
    (opcodeOf (.addDirect 0) = .add ∧ (Instr.addDirect 0).wf = true ∧ OperandLegal sumStart (.addDirect 0)) ∧
    (opcodeOf (.addImmediate (-1)) = .add ∧ (Instr.addImmediate (-1)).wf = true ∧ OperandLegal sumStart (.addImmediate (-1))) := by
  simp only [OperandLegal, State.AddressLegal, Instr.toRecord]
  decide

theorem witness_SubAndCmpSubtractTheOperand :
    (opcodeOf (.subIndirect 4) = .sub ∧ (Instr.subIndirect 4).wf = true ∧ OperandLegal sumStart (.subIndirect 4)) ∧
    (opcodeOf (.cmpDirect 255) = .cmp ∧ (Instr.cmpDirect 255).wf = true ∧ OperandLegal sumStart (.cmpDirect 255)) := by
  simp only [OperandLegal, State.AddressLegal, Instr.toRecord]
  decide

theorem witness_DivLeavesTheRemainder :
    (opcodeOf (.divDirect 4) = .div ∧ (Instr.divDirect 4).wf = true ∧ OperandLegal sumStart (.divDirect 4) ∧
      operandOf sumStart (.divDirect 4) ≠ 0) ∧
    (opcodeOf (.divImmediate (-1)) = .div ∧ (Instr.divImmediate (-1)).wf = true ∧
      OperandLegal sumStart (.divImmediate (-1)) ∧ operandOf sumStart (.divImmediate (-1)) ≠ 0) := by
  simp only [OperandLegal, operandOf, State.AddressLegal, Instr.toRecord]
  decide

theorem witness_DivByZeroFaults :
    opcodeOf (.divIndirect 0) = .div ∧ (Instr.divIndirect 0).wf = true ∧ OperandLegal sumStart (.divIndirect 0) ∧
    operandOf sumStart (.divIndirect 0) = 0 := by
  simp only [OperandLegal, operandOf, State.AddressLegal, Instr.toRecord]
  decide

theorem witness_RemainderLaw :
    (3 : Int) ≠ 0 ∧ (-3 : Int) ≠ 0 ∧ ((0 : Int) ≤ 0 ∧ (0 : Int) < 1) ∧ (0x80000000#32).toInt ≠ 0 := by decide

theorem witness_BranchTableIsExact :
    fitsWord (-2147483648) = true ∧ (start (-1) []).acc.toInt < 0 ∧ State.reset.acc.toInt = 0 ∧
    (start 1 []).acc.toInt > 0 := by decide

theorem witness_JumpsTouchOnlyPcAndTick :
    opcodeOf (.jge .absent 3) ∈ [Opcode.jmp, .jz, .jnz, .jn, .jle, .jge] ∧
    (∃ t, exec (.jge .absent 3) (start (-1) []) = .next t) :=
  ⟨by decide, _, rfl⟩

/-- A difference at each end of the range: MAX32 and MIN32. -/
theorem witness_CompareThenBranch :
    (opcodeOf (.cmpImmediate (-2147483648)) = .cmp ∧ (Instr.cmpImmediate (-2147483648)).wf = true ∧
      OperandLegal (start (-1) []) (.cmpImmediate (-2147483648)) ∧
      (∃ t, exec (.cmpImmediate (-2147483648)) (start (-1) []) = .next t) ∧
      (start (-1) []).acc.toInt - operandOf (start (-1) []) (.cmpImmediate (-2147483648)) = 2147483647) ∧
    (OperandLegal (start (-2147483648) []) (.cmpImmediate 0) ∧
      (start (-2147483648) []).acc.toInt - operandOf (start (-2147483648) []) (.cmpImmediate 0) = -2147483648) :=
  ⟨⟨by decide, by decide, trivial, ⟨_, rfl⟩, by decide⟩, trivial, by decide⟩

theorem witness_InReadsTheNextCharacter : State.reset.input[State.reset.inCur]? = some (0 : CharCode) := by decide

theorem witness_InPastTheEndFaults :
    let s := { State.reset with inCur := 1 }
    s.input.length ≤ s.inCur := by decide

theorem witness_OutAppendsTheCharacter :
    opcodeOf (.out .absent 0) = .out ∧ opcodeOf (.outc .direct 1) = .outc ∧
    (0 ≤ State.reset.acc.toInt ∧ State.reset.acc.toInt ≤ 1114111) ∧
    (0 ≤ (start 1114111 []).acc.toInt ∧ (start 1114111 []).acc.toInt ≤ 1114111) := by decide

theorem witness_OutOfNoCharacterFaults :
    opcodeOf (.outc .absent 0) = .outc ∧ (start (-1) []).acc.toInt < 0 ∧ 1114111 < (start 1114112 []).acc.toInt := by decide

/-- An instruction that completes, one that reaches the limit, and HLT. -/
theorem witness_CompletionCountsAndTicks :
    (∃ t, exec (.ldIndirect 3) loadStart = .next t ∧ t.runState = .running) ∧
    (∃ t, exec (.jmp .absent 0) { State.reset with limit := 1 } = .next t ∧ t.runState = .wdogStopped) ∧
    (∃ t, exec (.hlt .absent 0) { State.reset with limit := 1 } = .next t ∧ t.runState = .halted) :=
  ⟨⟨_, rfl, by decide⟩, ⟨_, rfl, by decide⟩, ⟨_, rfl, by decide⟩⟩

/-- A fault in the second hop of an operand fetch, and one in an execute group after a whole INDIRECT fetch. -/
theorem witness_FaultsArePrecise :
    (∃ t, exec (.addIndirect 8) loadStart = .next t ∧ t.runState = .faulted ∧ t.tick = loadStart.tick + 2) ∧
    (∃ t, exec (.stIndirect 0) { start 1 [(0, 1#32), (1, 256#32)] with da := 9#32 } = .next t ∧ t.runState = .faulted ∧ t.tick = 4) :=
  ⟨⟨_, rfl, by decide⟩, ⟨_, rfl, by decide⟩⟩

theorem witness_CausesBelongToTheirInstructions :
    (∃ t, exec (.ldDirect 256) loadStart = .next t ∧ t.runState = .faulted ∧ t.faultCause = .outOfMemoryAddress) ∧
    (∃ t, exec (.divImmediate 0) loadStart = .next t ∧ t.runState = .faulted ∧ t.faultCause = .divisionByZero) ∧
    (∃ t, exec (.inp .absent 0) { loadStart with inCur := 1 } = .next t ∧ t.runState = .faulted ∧ t.faultCause = .endOfInput) ∧
    (∃ t, exec (.out .absent 0) (start (-1) []) = .next t ∧ t.runState = .faulted ∧ t.faultCause = .outputRange) :=
  ⟨⟨_, rfl, by decide⟩, ⟨_, rfl, by decide⟩, ⟨_, rfl, by decide⟩, ⟨_, rfl, by decide⟩⟩

theorem witness_OnlyTheirInstructionsWriteMemoryAndInOut :
    (∃ t, exec (.addDirect 3) loadStart = .next t) ∧ opcodeOf (.addDirect 3) ≠ .st ∧ opcodeOf (.addDirect 3) ≠ .inp ∧
    opcodeOf (.addDirect 3) ≠ .out ∧ opcodeOf (.addDirect 3) ≠ .outc :=
  ⟨⟨_, rfl⟩, by decide, by decide, by decide, by decide⟩

theorem witness_OverflowIsStickyAndOnlyArithmeticSetsIt :
    (∃ t, exec (.ldImmediate 1) { State.reset with ovf := true } = .next t ∧ t.ovf = true) ∧
    (∃ t, exec (.addImmediate 1) (start 2147483647 []) = .next t ∧ (start 2147483647 []).ovf = false ∧ t.ovf = true) :=
  ⟨⟨_, rfl, by decide⟩, ⟨_, rfl, by decide⟩⟩

theorem witness_ProgramNeverChanges :
    ∃ t, Sys2Proof.core.run 2 (booted [0x1400000000#40, 0xF000000000#40]) = .next t ∧ t.runState = .halted :=
  ⟨_, rfl, by decide⟩

theorem witness_CountersAndSequencesOnlyGrow : ∃ t, step (booted [0xD000000000#40]) = .next t ∧ t.output = [0] :=
  ⟨_, rfl, by decide⟩

theorem witness_EveryLoadMeetsTheInvariant :
    ∃ s, load { defaults with memSize := 1, dataSeg := [7], limit := 0 } = .ok s ∧ s.dmem.read 0 = 7#32 :=
  ⟨_, rfl, by decide⟩

/-- A state of a run below its limit, with memory, input and a program, that meets the invariant and steps. -/
theorem witness_EveryStepKeepsTheInvariant :
    let s := { booted [0x1400000000#40] with acc := 7#32, dmem := ⟨[(255, 1#32)]⟩, da := 255#32, limit := 1 }
    s.Inv ∧ ∃ t, step s = .next t ∧ t.dmem = ⟨[(0, 7#32), (255, 1#32)]⟩ := by
  refine ⟨⟨by decide, by decide, by decide, by decide, by decide, ⟨by decide, by decide⟩, by decide, by decide,
    fun _ => .inl (by decide), nofun, by decide, fun _ => rfl, nofun, by decide, fun _ => by decide, by decide⟩, _, rfl, ?_⟩
  decide

theorem witness_LoadGivesTheResetTable : ∃ s, load { defaults with dataSeg := [-1], limit := 4294967295 } = .ok s ∧ s.cell 0 = -1 :=
  ⟨_, rfl, by decide⟩

theorem witness_DeadRegistersCarryNothing :
    SameButDead loadStart { loadStart with da := 3#32, dr := 4#32, alu := 5#33, ir := 6#40 } := rfl

theorem witness_NothingReadsTickOrOverflow : SameButObservers loadStart { loadStart with tick := 99, ovf := true } := rfl

theorem witness_WatchdogEndsEveryRun :
    let s := { booted [0x6000000000#40] with limit := 1 }
    s.runState = .running ∧ s.icount < s.limit := by decide

end Sys2Proof.Tests
end

/-! PROOF. The memory primitives of R65 and the signals that use them, what every step and run leaves of the
parameters, and the two statements of spec/20_memory.md that rest on them. -/

namespace Sys2Proof

/-- A word that is not negative, as an address, against an address given as a number. -/
theorem Word.natCast_eq_toInt_iff {w : Word} (h : 0 ≤ w.toInt) (b : Nat) : (b : Int) = w.toInt ↔ b = w.toNat := by
  rw [Word.toNat_eq_of_nonneg h]
  omega

end Sys2Proof

namespace Sys2Proof.Machine

/-! ### The memory primitives -/

/-- `MemRead` after `MemWrite` (R65): the word written, or the word of any other address as it was. -/
theorem Memory.read_write {m : Memory} (a b : Nat) (v : Word) (h : m.wf = true) :
    (m.write a v).read b = if b = a then v else m.read b :=
  readCells_writeCells a b v h

/-- After a load every word is that of the data segment, and 0 past its end (R39, R74). -/
theorem Memory.read_ofSegment (seg : List Word) (a : Nat) :
    (Memory.ofSegment seg).read a = (seg[a]?).getD 0#32 := by
  have h := readCells_segmentCells seg 0 a
  rwa [Nat.zero_add] at h

/-! ### The signals at DA -/

/-- `read_memory` gives the word at DA (R122). -/
theorem State.toInt_readMemory {s : State} (h : 0 ≤ s.da.toInt) : s.readMemory.toInt = s.cell s.da.toInt := by
  rw [State.readMemory, State.cell, Word.toNat_eq_of_nonneg h]

/-- A read after `write_memory`: ACC at DA, every other word as it was (R124). -/
theorem State.read_writeMemory {s : State} (hw : s.dmem.wf = true) (h : 0 ≤ s.da.toInt) (b : Nat) :
    s.writeMemory.dmem.read b = if (b : Int) = s.da.toInt then s.acc else s.dmem.read b := by
  simp only [State.writeMemory_dmem, Memory.read_write _ _ _ hw, Word.natCast_eq_toInt_iff h]

/-- An address latch that completes has latched the value, and the value is a legal address (R64, R120). -/
theorem latchDataAddress_completed {v : Word} {s t : State} (h : latchDataAddress v s = .completed t) :
    s.legalAddress v = true ∧ t = { s with da := v } := by
  unfold latchDataAddress at h
  split at h
  case isTrue hv =>
    cases h
    exact ⟨hv, rfl⟩
  case isFalse => cases h

/-! ### The parameters of a run -/

/-- What an operand fetch leaves, completed or faulted, has the parameters it began with. -/
theorem operandFetch_sameParameters {i : Instr} {s u : State}
    (h : operandFetch i s = .completed u ∨ operandFetch i s = .faulted u) : SameParameters s u := by
  rcases h with h | h
  · rw [operandFetch_completed h]
    exact ⟨rfl, rfl, rfl, rfl, rfl⟩
  · obtain ⟨-, -, -, hu⟩ := operandFetch_faulted h
    rw [hu]
    exact ⟨rfl, rfl, rfl, rfl, rfl⟩

/-- What the execute groups leave, completed or faulted, has the parameters they began with. -/
theorem executeGroups_sameParameters {op : Opcode} {arg : Int} {s u : State}
    (h : executeGroups op arg s = .completed u ∨ executeGroups op arg s = .faulted u) : SameParameters s u := by
  rcases h with h | h
  · obtain ⟨-, -, -, -, -, -, hp, -⟩ := executeGroups_completed h
    exact hp
  · rw [(executeGroups_faulted h).1]
    exact ⟨rfl, rfl, rfl, rfl, rfl⟩

theorem SameParameters.trans {s t u : State} (h : SameParameters s t) (k : SameParameters t u) :
    SameParameters s u := by
  obtain ⟨hp, hi, hm, hl, hr⟩ := h
  obtain ⟨kp, ki, km, kl, kr⟩ := k
  exact ⟨kp.trans hp, ki.trans hi, km.trans hm, kl.trans hl, kr.trans hr⟩

theorem State.complete_sameParameters (s : State) (halt : Bool) : SameParameters s (s.complete halt) :=
  ⟨rfl, rfl, rfl, rfl, rfl⟩

/-- No instruction changes the parameters of the run (R5), the program store among them (R72). -/
theorem exec_sameParameters {i : Instr} {s t : State} (h : exec i s = .next t) : SameParameters s t := by
  rcases exec_cases h with hf | ⟨u, hu, hf⟩ | ⟨u, v, hu, hv, rfl⟩
  · exact operandFetch_sameParameters (.inr hf)
  · exact (operandFetch_sameParameters (.inl hu)).trans (executeGroups_sameParameters (.inr hf))
  · exact ((operandFetch_sameParameters (.inl hu)).trans (executeGroups_sameParameters (.inl hv))).trans
      (v.complete_sameParameters _)

/-- No step changes the parameters of the run (R5, R72). -/
theorem step_sameParameters {s t : State} (h : step s = .next t) : SameParameters s t := by
  obtain ⟨-, ⟨-, rfl⟩ | ⟨-, rfl⟩ | ⟨w, e, -, -, rfl⟩ | ⟨w, i, -, -, -, -, hx⟩⟩ := step_cases h
  · exact ⟨rfl, rfl, rfl, rfl, rfl⟩
  · exact ⟨rfl, rfl, rfl, rfl, rfl⟩
  · exact ⟨rfl, rfl, rfl, rfl, rfl⟩
  · have hlatch : SameParameters s { s with ir := w } := ⟨rfl, rfl, rfl, rfl, rfl⟩
    exact hlatch.trans (exec_sameParameters hx)

/-- A run of one step more that ends in a next state began with a step to one. -/
theorem run_succ_next {n : Nat} {s t : State} (h : Sys2Proof.core.run (n + 1) s = .next t) :
    ∃ u, step s = .next u ∧ Sys2Proof.core.run n u = .next t := by
  cases hs : step s with
  | next u => exact ⟨u, rfl, (run_of_next n hs).symm.trans h⟩
  | fault r => cases (run_of_fault n hs).symm.trans h
  | refused r => cases (Core.run_of_refused Sys2Proof.core n hs).symm.trans h

/-- What holds of a state and is kept by every step holds at the end of every run from it. -/
theorem run_keeps {P : State → Prop} (hstep : ∀ s t, step s = .next t → P s → P t) (n : Nat) {s t : State}
    (h : Sys2Proof.core.run n s = .next t) (hs : P s) : P t := by
  induction n generalizing s with
  | zero =>
    cases h
    exact hs
  | succ n ih =>
    obtain ⟨u, hu, hrun⟩ := run_succ_next h
    exact ih hrun (hstep s u hu hs)

/-- No run changes the parameters it began with (R5). -/
theorem run_sameParameters {n : Nat} {s t : State} (h : Sys2Proof.core.run n s = .next t) : SameParameters s t :=
  run_keeps (P := SameParameters s) (fun _ _ hstep hs => hs.trans (step_sameParameters hstep)) n h
    ⟨rfl, rfl, rfl, rfl, rfl⟩

/-! ### The statements -/

/-- Settles O13: the first two clauses are the primitives', the other two the signals' at DA. -/
theorem memReadGivesTheLatestWrite : Obligations.MemReadGivesTheLatestWrite := by
  refine ⟨fun m a b v hw => Memory.read_write a b v hw, Memory.read_ofSegment, fun s hw hda => ?_, fun v s t h => ?_⟩
  · exact ⟨State.toInt_readMemory hda, ⟨_, rfl⟩, State.read_writeMemory hw hda⟩
  · obtain ⟨hv, rfl⟩ := latchDataAddress_completed h
    exact ⟨rfl, (s.legalAddress_iff v).1 hv⟩

/-- Settles O40: the program store is one of the parameters, which no run changes. -/
theorem programNeverChanges : Obligations.ProgramNeverChanges := by
  intro n s t h p
  obtain ⟨hprog, -⟩ := run_sameParameters h
  rw [hprog]

end Sys2Proof.Machine

/-! PROOF. Operand fetch by mode over the argument as an integer, and the statement of spec/40_instruction_cycle.md
that rests on it. -/

namespace Sys2Proof

/-- An argument that is not negative, as an address (R64, R86). -/
theorem Word.toNat_ofInt {v : Int} (hf : fitsWord v = true) (h : 0 ≤ v) : (Word.ofInt v).toNat = v.toNat := by
  have hv : (Word.ofInt v).toInt = v := Word.toInt_ofInt hf
  rw [Word.toNat_eq_of_nonneg (by rwa [hv]), hv]

end Sys2Proof

namespace Sys2Proof.Machine

/-! ### The pointer's bounds check -/

/-- The bounds check of the word read is that of its signed value, `M[a]` (R8, R64). -/
theorem State.legalAddress_read_iff (s : State) (a : Int) :
    s.legalAddress (s.dmem.read a.toNat) = true ↔ s.AddressLegal (s.cell a) :=
  s.legalAddress_iff _

/-! ### The fetch of each mode -/

/-- DIRECT at an address: DA and DR loaded in two ticks (R116). -/
theorem fetchDirect_of_legal {s : State} {arg : Int} (hf : fitsWord arg = true) (ha : s.AddressLegal arg) :
    fetchDirect arg s =
      .completed { s with da := Word.ofInt arg, dr := s.dmem.read arg.toNat, tick := s.tick + 2 } := by
  rw [fetchDirect_eq, if_pos ((s.legalAddress_ofInt hf).2 ha), Word.toNat_ofInt hf ha.1]

/-- DIRECT at no address: its first group fails and performs nothing (R116, D13). -/
theorem fetchDirect_of_not_legal {s : State} {arg : Int} (hf : fitsWord arg = true) (ha : ¬ s.AddressLegal arg) :
    fetchDirect arg s = .faulted (s.raiseFault .outOfMemoryAddress (Word.ofInt arg)) := by
  rw [fetchDirect_eq, if_neg (mt (s.legalAddress_ofInt hf).1 ha)]

/-- INDIRECT at an address is the pointer's hop from where DIRECT ends (R117). -/
theorem fetchIndirect_of_legal {s : State} {arg : Int} (hf : fitsWord arg = true) (ha : s.AddressLegal arg) :
    fetchIndirect arg s = if s.legalAddress (s.dmem.read arg.toNat) then
      .completed { s with da := s.dmem.read arg.toNat, dr := s.dmem.read (s.dmem.read arg.toNat).toNat,
                          tick := s.tick + 4 }
    else .faulted ({ s with da := Word.ofInt arg, dr := s.dmem.read arg.toNat,
                            tick := s.tick + 2 }.raiseFault .outOfMemoryAddress (s.dmem.read arg.toNat)) := by
  rw [fetchIndirect_eq, if_pos ((s.legalAddress_ofInt hf).2 ha), Word.toNat_ofInt hf ha.1]

/-- INDIRECT at no address fails as DIRECT does, before it reads a pointer (R117). -/
theorem fetchIndirect_of_not_legal {s : State} {arg : Int} (hf : fitsWord arg = true) (ha : ¬ s.AddressLegal arg) :
    fetchIndirect arg s = .faulted (s.raiseFault .outOfMemoryAddress (Word.ofInt arg)) := by
  rw [fetchIndirect, fetchDirect_of_not_legal hf ha, Group.andThen_faulted]

/-! ### The statement -/

/-- Settles O12: one clause for each mode and each address that is checked. -/
theorem operandFetchByMode : Obligations.OperandFetchByMode := by
  intro s arg hf
  refine ⟨fetchImmediate_eq arg s, fetchDirect_of_legal hf, fun ha hp => ?_,
    fun ha => ⟨fetchDirect_of_not_legal hf ha, fetchIndirect_of_not_legal hf ha⟩, fun ha hp => ?_⟩
  · have hptr : (s.dmem.read arg.toNat).toNat = (s.cell arg).toNat := Word.toNat_eq_of_nonneg hp.1
    rw [fetchIndirect_of_legal hf ha, if_pos ((s.legalAddress_read_iff arg).2 hp), hptr]
  · rw [fetchIndirect_of_legal hf ha, if_neg (mt (s.legalAddress_read_iff arg).1 hp)]
    rfl

end Sys2Proof.Machine

/-! PROOF. The end of a load and of a store at a legal address, a write of the word already there, and the statement
of spec/41_load_store.md that rests on them. -/

namespace Sys2Proof.Machine

/-! ### Memory as data -/

/-- A write keeps the canonical form of a memory (log 7). -/
theorem Memory.wf_write {m : Memory} (a : Nat) (v : Word) (h : m.wf = true) : (m.write a v).wf = true :=
  cellsWf_writeCells a v h

/-- Two canonical memories that read alike are the same data (log 8). -/
theorem Memory.eq_of_read_eq {m n : Memory} (hm : m.wf = true) (hn : n.wf = true) (h : ∀ a, m.read a = n.read a) :
    m = n :=
  congrArg Memory.mk (cells_ext hm hn h)

/-- Writing back the word read changes nothing (R65). -/
theorem Memory.write_read_same {m : Memory} (a : Nat) (h : m.wf = true) : m.write a (m.read a) = m := by
  refine Memory.eq_of_read_eq (Memory.wf_write a _ h) h fun b => ?_
  rw [Memory.read_write a b _ h]
  split
  case isTrue hb => rw [hb]
  case isFalse => rfl

/-! ### The ends of LD and ST -/

/-- LD's group takes DR, which fits ACC, through the ALU with neither wrap nor overflow (R140, R154). -/
theorem loadGroup_eq_of_fits (s : State) :
    loadGroup s = .completed { s with
      pc := s.pc + 1#32, alu := AluWord.ofInt s.dr.toInt, acc := s.dr, tick := s.tick + 1 } := by
  have hf : fitsWord s.dr.toInt = true := Word.fitsWord_toInt s.dr
  rw [loadGroup_eq, AluWord.toInt_pass, wrap32_of_fits hf, Word.ofInt_toInt, overflows_of_fits hf, Bool.or_false]

/-- ST's groups complete when DR is an address: ACC stored at DR (R141). -/
theorem storeGroups_of_legal {s : State} (h : s.legalAddress s.dr = true) :
    storeGroups s = .completed { s with
      pc := s.pc + 1#32, da := s.dr, dmem := s.dmem.write s.dr.toNat s.acc, tick := s.tick + 2 } := by
  rw [storeGroups_eq, if_pos h]

/-- LD, DIRECT, of a legal address: `M[a]` in ACC, DR and ALU, `a` in DA (R140). -/
theorem exec_ldDirect_of_legal {s : State} {a : Int} (hf : fitsWord a = true) (ha : s.AddressLegal a) :
    exec (.ldDirect a) s = .next (State.complete false { s with
      da := Word.ofInt a, dr := s.dmem.read a.toNat, acc := s.dmem.read a.toNat,
      alu := AluWord.ofInt (s.cell a), pc := s.pc + 1#32, tick := s.tick + 3 }) := by
  have hexec : exec (.ldDirect a) s = ((fetchDirect a s).andThen loadGroup).finish false := rfl
  rw [hexec, fetchDirect_of_legal hf ha, Group.andThen_completed, loadGroup_eq_of_fits, Group.finish_completed]
  rfl

/-- ST, IMMEDIATE, to a legal address: ACC at `a`, and `a` in DA and DR (R141). -/
theorem exec_stImmediate_of_legal {s : State} {a : Int} (hf : fitsWord a = true) (ha : s.AddressLegal a) :
    exec (.stImmediate a) s = .next (State.complete false { s with
      da := Word.ofInt a, dr := Word.ofInt a, dmem := s.dmem.write a.toNat s.acc, pc := s.pc + 1#32,
      tick := s.tick + 3 }) := by
  have hexec : exec (.stImmediate a) s = ((fetchImmediate a s).andThen storeGroups).finish false := rfl
  have hlegal : s.legalAddress (Word.ofInt a) = true := (s.legalAddress_ofInt hf).2 ha
  rw [hexec, fetchImmediate_eq, Group.andThen_completed, storeGroups_of_legal hlegal, Group.finish_completed,
    Word.toNat_ofInt hf ha.1]

/-! ### The statement -/

/-- Settles O19: the store writes back at `a` the word that the load read there. -/
theorem loadThenStoreIsNoOpOnMemory : Obligations.LoadThenStoreIsNoOpOnMemory := by
  intro s a hw hf ha
  refine ⟨_, _, exec_ldDirect_of_legal hf ha, exec_stImmediate_of_legal hf ha, Memory.write_read_same a.toNat hw,
    rfl, rfl, AluWord.toInt_pass _, Word.toInt_ofInt hf, Word.toInt_ofInt hf, ?pc, rfl, rfl⟩
  case pc => exact BitVec.add_assoc s.pc 1#32 1#32

end Sys2Proof.Machine

/-! PROOF. The wrap outside the range of ACC, what a completed instruction went through, and the statement of
spec/42_arithmetic.md that rests on them. -/

namespace Sys2Proof.Machine

/-! ### The wrap outside the range -/

/-- Above the maximum the wrap flips to the minimum (R154). -/
theorem wrap32_of_max_lt {v : Int} (h : Config.max32 < v) : wrap32 v = Config.min32 := if_pos h

/-- Below the minimum the wrap flips to the maximum (R154). -/
theorem wrap32_of_lt_min {v : Int} (h : v < Config.min32) : wrap32 v = Config.max32 := by
  have hmax : v < Config.max32 := h.trans (by decide)
  rw [wrap32, if_neg hmax.not_gt, if_pos h]

/-! ### Completion -/

/-- An instruction that ICOUNT counts did not fault: its operand fetch and its execute groups completed (R113, R208). -/
theorem exec_completed_of_icount {i : Instr} {s t : State} (h : exec i s = .next t) (hc : t.icount = s.icount + 1) :
    ∃ u v, operandFetch i s = .completed u ∧ executeGroups (opcodeOf i) i.toRecord.arg u = .completed v ∧
      t = v.complete (opcodeOf i == .hlt) := by
  rcases exec_cases h with hf | ⟨u, hu, hf⟩ | hdone
  · obtain ⟨-, -, -, ht⟩ := operandFetch_faulted hf
    have hsame : t.icount = s.icount := by rw [ht]
    omega
  · have hgroups : t.icount = u.icount := by rw [(executeGroups_faulted hf).1]
    have hfetch : u.icount = s.icount := by rw [operandFetch_completed hu]
    omega
  · exact hdone

/-! ### The statement -/

/-- Settles O20: operand fetch leaves ACC and the input alone, and the execute groups that complete latch the wrap of
the ALU, the character code, or nothing. -/
theorem accIsTheFlipWrapOfTheAlu : Obligations.AccIsTheFlipWrapOfTheAlu := by
  intro i s t h hc
  obtain ⟨u, v, hu, hv, rfl⟩ := exec_completed_of_icount h hc
  obtain ⟨hwrap, hother, -, hinp⟩ := executeGroups_acc hv
  have hfetch := operandFetch_completed hu
  refine ⟨fun hop => ?wrapped, fun hop => ?unchanged, fun hop => ?character⟩
  case wrapped =>
    have hacc : v.acc.toInt = wrap32 v.alu.toInt := by rw [(hwrap hop).1, toInt_ofInt_wrap32]
    exact ⟨fun hi => hacc.trans (wrap32_of_max_lt hi), fun lo => hacc.trans (wrap32_of_lt_min lo),
      fun lo hi => hacc.trans (wrap32_of_fits ((fitsWord_iff _).2 ⟨lo, hi⟩))⟩
  case unchanged =>
    have hnot : opcodeOf i ∉ [Opcode.ld, .add, .sub, .cmp, .div] :=
      fun hm => hop (List.mem_append_left [.inp] hm :)
    have hne : opcodeOf i ≠ .inp := fun he => hop (by simp [he])
    have hacc : v.acc = u.acc := (hother hnot).2 hne
    rw [State.complete_acc, hacc, hfetch]
  case character =>
    obtain ⟨c, hread, hacc⟩ := hinp hop
    rw [hfetch] at hread
    exact ⟨c, hread, hacc⟩

end Sys2Proof.Machine

/-! PROOF. The six branch conditions over the sign of ACC, the state a jump leaves, and the statement of
spec/43_control_transfer.md that rests on them. -/

namespace Sys2Proof.Machine

/-! ### The branch conditions in terms of ACC -/

section
variable (acc : Word)

/-- Z is `ACC = 0` (R27). -/
theorem zeroFlag_iff : zeroFlag acc = true ↔ acc.toInt = 0 := decide_eq_true_iff

/-- N is `ACC < 0` (R27). -/
theorem negativeFlag_iff : negativeFlag acc = true ↔ acc.toInt < 0 := decide_eq_true_iff

/-- JZ's row of R176. -/
theorem branchZ_iff : branchZ acc = true ↔ acc.toInt = 0 := zeroFlag_iff acc

/-- JNZ's row of R176. -/
theorem branchNZ_iff : branchNZ acc = true ↔ acc.toInt ≠ 0 := by
  rw [branchNZ, Bool.not_eq_true', ← Bool.not_eq_true, zeroFlag_iff]

/-- JN's row of R176. -/
theorem branchN_iff : branchN acc = true ↔ 0 ≤ acc.toInt := by
  rw [branchN, Bool.not_eq_true', ← Bool.not_eq_true, negativeFlag_iff, not_lt]

/-- JLE's row of R176: `N ∨ (¬N ∧ Z)` is `ACC ≤ 0`. -/
theorem branchLE_iff : branchLE acc = true ↔ 0 < acc.toInt := by
  have hle : (negativeFlag acc || (!negativeFlag acc && zeroFlag acc)) = true ↔ acc.toInt ≤ 0 := by
    rw [Bool.or_and_distrib_left, Bool.or_not_self, Bool.true_and, Bool.or_eq_true, negativeFlag_iff, zeroFlag_iff,
      le_iff_lt_or_eq]
  rw [branchLE, Bool.not_eq_true', ← Bool.not_eq_true, hle, not_le]

/-- JGE's row of R176: a negative ACC is never zero. -/
theorem branchGE_iff : branchGE acc = true ↔ acc.toInt < 0 := by
  rw [branchGE, Bool.and_eq_true, Bool.not_eq_true', ← Bool.not_eq_true, zeroFlag_iff, negativeFlag_iff]
  exact and_iff_right_of_imp ne_of_lt

end

/-! ### The state a jump leaves -/

/-- The next state of a jump that branches or falls through (R170 to R176, R113). -/
def State.afterJump (branch : Bool) (arg : Int) (s : State) : State :=
  State.complete false { s with pc := if branch then Word.ofInt arg else s.pc + 1#32, tick := s.tick + 1 }

section
variable (m : Mode) (arg : Int) (s : State)

theorem jumpGroup_finish (branch : Bool) : (jumpGroup branch arg s).finish false = .next (s.afterJump branch arg) := by
  rw [jumpGroup_eq, Group.finish_completed, State.afterJump]

theorem exec_jmp : exec (.jmp m arg) s = .next (s.afterJump true arg) := jumpGroup_finish arg s true
theorem exec_jz : exec (.jz m arg) s = .next (s.afterJump (branchZ s.acc) arg) := jumpGroup_finish arg s _
theorem exec_jnz : exec (.jnz m arg) s = .next (s.afterJump (branchNZ s.acc) arg) := jumpGroup_finish arg s _
theorem exec_jn : exec (.jn m arg) s = .next (s.afterJump (branchN s.acc) arg) := jumpGroup_finish arg s _
theorem exec_jle : exec (.jle m arg) s = .next (s.afterJump (branchLE s.acc) arg) := jumpGroup_finish arg s _
theorem exec_jge : exec (.jge m arg) s = .next (s.afterJump (branchGE s.acc) arg) := jumpGroup_finish arg s _

end

/-- "Branch": the target is the argument itself (R176, R177). -/
theorem State.toInt_afterJump_pc {branch : Bool} {arg : Int} (s : State) (hf : fitsWord arg = true)
    (hb : branch = true) : (s.afterJump branch arg).pc.toInt = arg := by
  rw [State.afterJump, State.complete_pc, if_pos hb, Word.toInt_ofInt hf]

/-- "Fall through": the next instruction (R176). -/
theorem State.afterJump_pc_of_not {branch : Bool} (arg : Int) (s : State) (hb : ¬ branch = true) :
    (s.afterJump branch arg).pc = s.pc + 1#32 := by
  rw [State.afterJump, State.complete_pc, if_neg hb]

/-! ### The statement -/

/-- Settles O26: each jump leaves its `afterJump` state, and the sign of ACC decides each row of the table. -/
theorem branchTableIsExact : Obligations.BranchTableIsExact := by
  intro m arg s hf
  have taken {b : Bool} (hb : b = true) : (s.afterJump b arg).pc.toInt = arg := s.toInt_afterJump_pc hf hb
  have through {b : Bool} (hb : ¬ b = true) : (s.afterJump b arg).pc = s.pc + 1#32 := s.afterJump_pc_of_not arg hb
  refine ⟨_, _, _, _, _, _, exec_jmp m arg s, exec_jz m arg s, exec_jnz m arg s, exec_jn m arg s, exec_jle m arg s,
    exec_jge m arg s, taken rfl, fun hacc => ?negative, fun hacc => ?zero, fun hacc => ?positive⟩
  case negative =>
    exact ⟨through (mt (branchZ_iff _).1 hacc.ne), taken ((branchNZ_iff _).2 hacc.ne),
      through (mt (branchN_iff _).1 hacc.not_ge), through (mt (branchLE_iff _).1 hacc.not_gt),
      taken ((branchGE_iff _).2 hacc)⟩
  case zero =>
    exact ⟨taken ((branchZ_iff _).2 hacc), through (mt (branchNZ_iff _).1 (not_not_intro hacc)),
      taken ((branchN_iff _).2 hacc.ge), through (mt (branchLE_iff _).1 hacc.not_gt),
      through (mt (branchGE_iff _).1 hacc.not_lt)⟩
  case positive =>
    exact ⟨through (mt (branchZ_iff _).1 hacc.ne'), taken ((branchNZ_iff _).2 hacc.ne'),
      taken ((branchN_iff _).2 hacc.le), taken ((branchLE_iff _).2 hacc), through (mt (branchGE_iff _).1 hacc.not_gt)⟩

end Sys2Proof.Machine

/-! PROOF. What decodes and to what, with the fields of a word as numbers, and the statements of
spec/30_encoding.md that rest on them. -/

namespace Sys2Proof

/-! ### Well-formed instructions -/

/-- The record of an instruction has the mode it needs, by its constructor (R81, R87 b). -/
theorem Instr.hasNeededMode_toRecord (i : Instr) : i.toRecord.hasNeededMode = true := by
  rw [← Bool.not_eq_false, ← Record.toInstr_error_iff, Instr.toInstr_toRecord]
  exact nofun

/-- An instruction that fetches an operand has a mode (R81 a). -/
theorem Instr.mode_ne_absent (i : Instr) (hm : i.toRecord.opcode.isMemoryOperand = true) :
    i.toRecord.mode ≠ .absent := by
  intro ha
  have hneeded := i.hasNeededMode_toRecord
  rw [Record.hasNeededMode, hm, ha] at hneeded
  cases hneeded

/-- An instruction is well-formed exactly when its argument fits (R86). -/
theorem Instr.wf_iff (i : Instr) : i.wf = true ↔ fitsWord i.toRecord.arg = true := by
  rw [Instr.wf, Record.wf, i.hasNeededMode_toRecord, Bool.and_true]

/-! ### Decoding by fields -/

/-- The fields of the word of a record whose argument fits are the record (R92). -/
theorem InstrWord.record_encode {r : Record} (hf : fitsWord r.arg = true) : InstrWord.record r.encode = r := by
  obtain ⟨hop, hmode, -, harg⟩ := r.encode_fields
  rw [InstrWord.record, hop, hmode, harg, Opcode.ofCode_code, Mode.ofCode_code, Word.toInt_ofInt hf]

/-- What decodes: reserved bits 00, and the fields are the instruction's record (R87, R88). -/
theorem decode_eq_ok_iff {w : InstrWord} {i : Instr} :
    decode w = .ok i ↔ InstrWord.rsvField w = 0#2 ∧ i.toRecord = InstrWord.record w := by
  unfold decode
  split
  case isTrue hrsv =>
    refine ⟨fun h => ⟨hrsv, Record.toInstr_ok h⟩, fun h => ?_⟩
    rw [← h.2, Instr.toInstr_toRecord]
  case isFalse hrsv => exact ⟨nofun, fun h => absurd h.1 hrsv⟩

/-- A record is never illegal for its reserved bits: it has none (R87 a). -/
theorem Record.toInstr_ne_reservedBits (r : Record) : r.toInstr ≠ .error .reservedBits := by
  obtain ⟨o, m, a⟩ := r
  cases o <;> cases m <;> exact nofun

/-- What does not: reserved bits, or a needed mode that is missing (R87). -/
theorem decode_eq_error_iff {w : InstrWord} :
    (∃ e, decode w = .error e) ↔ InstrWord.rsvField w ≠ 0#2 ∨ (InstrWord.record w).hasNeededMode = false := by
  unfold decode
  split
  case isTrue hrsv =>
    have hmissing : (∃ e, (InstrWord.record w).toInstr = .error e) ↔ (InstrWord.record w).hasNeededMode = false := by
      refine ⟨fun ⟨e, he⟩ => ?_, fun h => ⟨_, (Record.toInstr_error_iff _).2 h⟩⟩
      cases e with
      | missingMode => exact (Record.toInstr_error_iff _).1 he
      | reservedBits => exact absurd he (Record.toInstr_ne_reservedBits _)
    rw [hmissing, or_iff_right (not_not_intro hrsv)]
  case isFalse hrsv => exact ⟨fun _ => .inl hrsv, fun _ => ⟨_, rfl⟩⟩

/-! ### The numbers of the fields -/

/-- The memory-operand opcodes are the numbers below 6 (R84). -/
theorem Opcode.isMemoryOperand_ofCode (c : BitVec 4) : (Opcode.ofCode c).isMemoryOperand = true ↔ c.toNat < 6 := by
  revert c
  decide

/-- NONE is the mode 0 (R85). -/
theorem Mode.ofCode_eq_absent_iff (c : BitVec 2) : Mode.ofCode c = .absent ↔ c.toNat = 0 := by
  revert c
  decide

theorem rsvField_eq_zero_iff (w : InstrWord) : InstrWord.rsvField w = 0#2 ↔ w.toNat / 2 ^ 32 % 4 = 0 := by
  rw [← BitVec.toNat_inj, rsvField_toNat, BitVec.toNat_zero]

/-- A word lacks the mode it needs exactly when its opcode is below 6 and its mode 0 (R87 b). -/
theorem InstrWord.hasNeededMode_record_eq_false_iff (w : InstrWord) :
    (InstrWord.record w).hasNeededMode = false ↔ w.toNat / 2 ^ 36 < 6 ∧ w.toNat / 2 ^ 34 % 4 = 0 := by
  rw [Record.hasNeededMode, Bool.not_eq_false', Bool.and_eq_true, beq_iff_eq, InstrWord.record,
    Opcode.isMemoryOperand_ofCode, Mode.ofCode_eq_absent_iff, opcodeField_toNat, modeField_toNat]

/-- The argument field read as a signed number (R86). -/
theorem argField_toInt (w : InstrWord) :
    (InstrWord.argField w).toInt =
      if w.toNat % 2 ^ 32 < 2 ^ 31 then ((w.toNat % 2 ^ 32 : Nat) : Int) else (w.toNat % 2 ^ 32 : Nat) - 2 ^ 32 := by
  rw [BitVec.toInt_eq_toNat_cond, argField_toNat]
  split <;> split <;> omega

/-! ### The statements -/

/-- Settles O1: each word is a number, and decoding computes. -/
theorem wordsWrittenFromTheSpecDecode : Obligations.WordsWrittenFromTheSpecDecode := by
  unfold Obligations.WordsWrittenFromTheSpecDecode
  decide

/-- Settles O2: the word's reserved bits are 00 and its fields are the record. -/
theorem decodeOfEncodeIsTheInstruction : Obligations.DecodeOfEncodeIsTheInstruction := by
  intro i hw
  obtain ⟨-, -, hrsv, -⟩ := i.toRecord.encode_fields
  exact decode_eq_ok_iff.2 ⟨hrsv, (InstrWord.record_encode ((i.wf_iff).1 hw)).symm⟩

/-- Settles O3: a legal word is its four fields, and each field survives its name or its value. -/
theorem encodeOfDecodeIsTheWord : Obligations.EncodeOfDecodeIsTheWord := by
  intro w i h
  obtain ⟨hrsv, hrec⟩ := decode_eq_ok_iff.1 h
  refine ⟨?word, (i.wf_iff).2 ?fits⟩
  case word =>
    rw [encode, hrec, Record.encode, InstrWord.record, Opcode.code_ofCode, Mode.code_ofCode, Word.ofInt_toInt, ← hrsv,
      packWord_fields]
  case fits =>
    rw [hrec]
    exact Word.fitsWord_toInt (InstrWord.argField w)

/-- Settles O4: the record decoded is the record of the word's fields. -/
theorem decodedFieldsAreTheWordsBits : Obligations.DecodedFieldsAreTheWordsBits := by
  intro w i h
  obtain ⟨-, hrec⟩ := decode_eq_ok_iff.1 h
  rw [Machine.opcodeOf, hrec]
  refine ⟨?opcode, ?mode, argField_toInt w⟩
  case opcode => rw [InstrWord.record, Opcode.code_ofCode, opcodeField_toNat]
  case mode => rw [InstrWord.record, Mode.code_ofCode, modeField_toNat]

/-- Settles O5: the two ways a word fails to decode, each as a condition on its number. -/
theorem illegalWordsAreExactlyThese : Obligations.IllegalWordsAreExactlyThese := by
  intro w
  rw [decode_eq_error_iff, Ne, rsvField_eq_zero_iff, InstrWord.hasNeededMode_record_eq_false_iff]

end Sys2Proof

/-! PROOF. One step of a RUNNING core below its limit, by what fetch and decode answer, and the statements of
spec/40_instruction_cycle.md on the cycle. -/

namespace Sys2Proof.Machine

/-! ### The cycle, by what fetch and decode answer -/

/-- Every instruction answers a next state (R110). -/
theorem exec_next (i : Instr) (s : State) : ∃ t, exec i s = .next t := by
  rw [exec_eq]
  exact Group.finish_next _ _

/-- At its limit a RUNNING core stops before fetch (R110). -/
theorem step_at_limit {s : State} (hr : s.runState = .running) (hl : s.limit ≤ s.icount) :
    step s = .next { s with runState := .wdogStopped } := by
  rw [step_of_running hr, instructionCycle, if_pos hl]

section
variable {s : State} (hr : s.runState = .running) (hl : s.icount < s.limit)
include hr hl

/-- A fetch that faults ends the step (R111). -/
theorem step_of_fetch_faulted {t : State} (hf : fetch s = .faulted t) : step s = .next t := by
  rw [step_of_running hr, instructionCycle, if_neg hl.not_ge, hf]

/-- A fetch that completes goes on to decode (R112). -/
theorem step_of_fetch_completed {t : State} (hf : fetch s = .completed t) : step s = decodeAndExecute t := by
  rw [step_of_running hr, instructionCycle, if_neg hl.not_ge, hf]

end

theorem decodeAndExecute_of_ok {s : State} {i : Instr} (hd : decode s.ir = .ok i) : decodeAndExecute s = exec i s := by
  rw [decodeAndExecute, hd]

theorem decodeAndExecute_of_error {s : State} {e : Illegal} (hd : decode s.ir = .error e) :
    decodeAndExecute s = .next (s.raiseFault .illegalInstruction 0#32) := by
  rw [decodeAndExecute, hd]

/-- Decode and what follows always answer a next state. -/
theorem decodeAndExecute_next (s : State) : ∃ t, decodeAndExecute s = .next t := by
  cases hd : decode s.ir with
  | ok i =>
    rw [decodeAndExecute_of_ok hd]
    exact exec_next i s
  | error e => exact ⟨_, decodeAndExecute_of_error hd⟩

/-- A PC that indexes no word is refused by fetch (R111). -/
theorem fetch_of_outside {s : State} (h : s.pc.toInt < 0 ∨ (s.prog.length : Int) ≤ s.pc.toInt) :
    fetch s = .faulted (s.raiseFault .pcOutOfRange s.pc) := by
  rcases fetch_cases s with ⟨w, hpc, hw, -⟩ | ⟨-, hf⟩
  · obtain ⟨hlt, -⟩ := List.getElem?_eq_some_iff.1 hw
    omega
  · exact hf

/-- A RUNNING core always has a step (R110). -/
theorem step_next_of_running {s : State} (hr : s.runState = .running) : ∃ t, step s = .next t := by
  by_cases hl : s.icount < s.limit
  · cases hf : fetch s with
    | completed t =>
      rw [step_of_fetch_completed hr hl hf]
      exact decodeAndExecute_next t
    | faulted t => exact ⟨t, step_of_fetch_faulted hr hl hf⟩
  · exact ⟨_, step_at_limit hr (not_lt.1 hl)⟩

/-- In a terminal state the core has no step, and the outcome names the state (R29). -/
theorem step_of_not_running {s : State} (hr : s.runState ≠ .running) : ∃ f, step s = .fault f := by
  unfold step
  split
  case h_1 h => exact absurd h hr
  case h_2 => exact ⟨_, rfl⟩
  case h_3 => exact ⟨_, rfl⟩
  case h_4 => exact ⟨_, rfl⟩

/-- No step is refused (R110). -/
theorem step_ne_refused (s : State) (r : Refusal) : step s ≠ .refused r := by
  intro h
  by_cases hr : s.runState = .running
  · obtain ⟨t, ht⟩ := step_next_of_running hr
    cases ht.symm.trans h
  · obtain ⟨f, hf⟩ := step_of_not_running hr
    cases hf.symm.trans h

/-! ### The statements -/

/-- Settles O6: fetch latches the word, decode answers the instruction. -/
theorem stepRunsTheDecodedInstruction : Obligations.StepRunsTheDecodedInstruction := by
  intro s w i hr hl hpc hw hd
  rw [step_of_fetch_completed hr hl (fetch_of_word hpc hw)]
  exact decodeAndExecute_of_ok hd

/-- Settles O7: the pre-check comes first. -/
theorem stepAtTheLimitOnlyStops : Obligations.StepAtTheLimitOnlyStops :=
  fun _ hr hl => step_at_limit hr hl

/-- Settles O8: fetch refuses the PC. -/
theorem pcOutsideTheProgramFaults : Obligations.PcOutsideTheProgramFaults :=
  fun _ hr hl hpc => step_of_fetch_faulted hr hl (fetch_of_outside hpc)

/-- Settles O9: fetch latches the word, decode refuses it. -/
theorem illegalWordFaults : Obligations.IllegalWordFaults := by
  intro s w e hr hl hpc hw hd
  rw [step_of_fetch_completed hr hl (fetch_of_word hpc hw)]
  exact decodeAndExecute_of_error hd

/-- Settles O10: a RUNNING core steps, and a terminal state answers the host's fault. -/
theorem stepExistsExactlyWhenRunning : Obligations.StepExistsExactlyWhenRunning :=
  fun s => ⟨⟨fun ⟨_, ht⟩ => (step_cases ht).1, step_next_of_running⟩, step_ne_refused s⟩

/-- Settles O11: every meaning ends in a completion or in the FAULTED state. -/
theorem everyInstructionAnswersANextState : Obligations.EveryInstructionAnswersANextState := exec_next

end Sys2Proof.Machine

/-! PROOF. The addresses that a memory lists, and the statement on the canonical form of DMEM (spec/20_memory.md). -/

namespace Sys2Proof.Machine

theorem Memory.below_iff {m : Memory} {size : Nat} : m.below size = true ↔ ∀ c ∈ m.cells, c.1 < size := by
  rw [Memory.below, List.all_eq_true]
  exact forall₂_congr fun _ _ => decide_eq_true_iff

/-- A write below the size lists nothing at or above it (R34, R64). -/
theorem Memory.below_write {m : Memory} {a size : Nat} (v : Word) (h : m.below size = true) (ha : a < size) :
    (m.write a v).below size = true := by
  refine Memory.below_iff.2 fun c hc => ?_
  rcases mem_writeCells hc with rfl | hc
  · exact ha
  · exact Memory.below_iff.1 h c hc

theorem Memory.wf_ofSegment (seg : List Word) : (Memory.ofSegment seg).wf = true := cellsWf_segmentCells seg 0

/-- A data segment lists addresses below its length (R74). -/
theorem Memory.below_ofSegment {seg : List Word} {size : Nat} (h : seg.length ≤ size) :
    (Memory.ofSegment seg).below size = true := by
  refine Memory.below_iff.2 fun c hc => ?_
  have hlt := (mem_segmentCells hc).2
  omega

/-- Settles O14: writes and segments keep the form, and reading tells canonical memories apart. -/
theorem memoryKeepsItsCanonicalForm : Obligations.MemoryKeepsItsCanonicalForm :=
  ⟨fun _ a v h => Memory.wf_write a v h, fun _ _ _ v h ha => Memory.below_write v h ha,
    fun seg => ⟨Memory.wf_ofSegment seg, Memory.below_ofSegment le_rfl⟩, fun _ _ hm hn h => Memory.eq_of_read_eq hm hn h⟩

end Sys2Proof.Machine

/-! PROOF. The execute groups of an opcode that fetches an operand, from where its operand fetch ends, and the
statements of spec/41_load_store.md and spec/42_arithmetic.md on LD, ST, ADD, SUB, CMP and DIV. -/

namespace Sys2Proof.Machine

/-! ### From operand fetch to execute -/

section
variable {i : Instr} {s : State}

/-- A fault of the operand fetch is the end of the instruction (R110). -/
theorem exec_of_operandFetch_faulted {t : State} (hf : operandFetch i s = .faulted t) : exec i s = .next t := by
  rw [exec_eq, hf, Group.andThen_faulted, Group.finish_faulted]

section
variable (hm : (opcodeOf i).isMemoryOperand = true)
include hm

theorem operandFetch_of_direct (hmode : i.toRecord.mode = .direct) :
    operandFetch i s = fetchDirect i.toRecord.arg s := by
  rw [operandFetch, if_pos hm, hmode]

theorem operandFetch_of_indirect (hmode : i.toRecord.mode = .indirect) :
    operandFetch i s = fetchIndirect i.toRecord.arg s := by
  rw [operandFetch, if_pos hm, hmode]

/-- The ticks of an instruction that fetches an operand (R118). -/
theorem tickTotal_of_memoryOperand : tickTotal i = fetchTicks i.toRecord.mode + executeTicks (opcodeOf i) := by
  rw [tickTotal, if_pos hm]

/-- HLT fetches no operand (R81). -/
theorem opcodeOf_ne_hlt_of_memoryOperand : (opcodeOf i == .hlt) = false := by
  rw [beq_eq_false_iff_ne]
  intro he
  rw [he] at hm
  cases hm

end

/-- The state in which operand fetch leaves the execute groups: an address in DA and an operand in DR (R119). -/
def State.operandFetched (s : State) (i : Instr) (da dr : Word) : State :=
  { s with da := da, dr := dr, tick := s.tick + fetchTicks i.toRecord.mode }

/-- On legal addresses an instruction is its execute groups, from its operand in DR (R110, R119). -/
theorem exec_of_operandLegal (hm : (opcodeOf i).isMemoryOperand = true) (hw : i.wf = true) (hl : OperandLegal s i) :
    ∃ da dr : Word, da.toInt = addressAfterFetch s i ∧ dr.toInt = operandOf s i ∧
      exec i s = (executeGroups (opcodeOf i) i.toRecord.arg (s.operandFetched i da dr)).finish false := by
  obtain ⟨u, hu, hdr, hda⟩ := operandFetch_legal hm hw hl
  have hfetched : u = s.operandFetched i u.da u.dr := by
    have h := operandFetch_completed hu
    rwa [if_pos hm] at h
  refine ⟨u.da, u.dr, hda, hdr, ?_⟩
  rw [exec_eq, hu, Group.andThen_completed, opcodeOf_ne_hlt_of_memoryOperand hm, ← hfetched]

end

/-! ### The operands that the execute groups refuse -/

theorem storeGroups_of_not_legal {s : State} (h : ¬ s.legalAddress s.dr = true) :
    storeGroups s = .faulted (s.raiseFault .outOfMemoryAddress s.dr) := by
  rw [storeGroups_eq, if_neg h]

theorem remainderGroups_of_zero {s : State} (h : s.dr.toInt = 0) :
    remainderGroups s = .faulted (s.raiseFault .divisionByZero 0#32) := by
  rw [remainderGroups_eq, if_pos h]

/-! ### A result through the ALU latch -/

/-- What LD, ADD, SUB, CMP and DIV end in: a value through the ALU latch into ACC, and the next PC (R123, R154). -/
def State.accumulate (v : Int) (ticks : Nat) (s : State) : State :=
  { s with
    pc := s.pc + 1#32
    alu := AluWord.ofInt v
    acc := Word.ofInt (wrap32 (AluWord.ofInt v).toInt)
    ovf := s.ovf || overflows (AluWord.ofInt v).toInt
    tick := s.tick + ticks }

theorem loadGroup_accumulates (s : State) : loadGroup s = .completed (s.accumulate s.dr.toInt 1) := loadGroup_eq s

theorem addGroups_accumulate (s : State) :
    addGroups s = .completed (s.accumulate (s.acc.toInt + s.dr.toInt) 2) := addGroups_eq s

theorem subtractGroups_accumulate (s : State) :
    subtractGroups s = .completed (s.accumulate (s.acc.toInt - s.dr.toInt) 2) := subtractGroups_eq s

theorem remainderGroups_accumulate {s : State} (h : s.dr.toInt ≠ 0) :
    remainderGroups s = .completed (s.accumulate (remainder s.rem s.acc.toInt s.dr.toInt) 2) := by
  rw [remainderGroups_eq, if_neg h]
  rfl

/-- OVF after the latch: as it was, or set because the wrap changed the value (R157). -/
theorem or_overflows_iff (b : Bool) (v : Int) : (b || overflows v) = true ↔ b = true ∨ wrap32 v ≠ v := by
  rw [Bool.or_eq_true, overflows_iff]

/-- The instruction completes with the exact value in ALU and its wrap in ACC, and otherwise changes only what its
operand fetch and the cycle change (R113, R118, R119, R154, R157). -/
def Accumulates (i : Instr) (s : State) (v : Int) : Prop :=
  ∃ t, exec i s = .next t ∧ t.alu.toInt = v ∧ t.acc.toInt = wrap32 v ∧
    (t.ovf = true ↔ s.ovf = true ∨ t.acc.toInt ≠ v) ∧
    t.dr.toInt = operandOf s i ∧ t.da.toInt = addressAfterFetch s i ∧ t.pc = s.pc + 1#32 ∧
    t.tick = s.tick + tickTotal i ∧ CompletedNormally s t ∧ SameMemory s t ∧ SameInOut s t ∧ SameParameters s t

section
variable {i : Instr} {s : State} {v : Int}

/-- An instruction accumulates a value when its execute groups do, for the word in DR that is the operand, and the
ALU latch holds the value exactly. -/
theorem accumulates_of_executeGroups (hm : (opcodeOf i).isMemoryOperand = true) (hw : i.wf = true)
    (hl : OperandLegal s i)
    (hgroups : ∀ da dr : Word, dr.toInt = operandOf s i → (AluWord.ofInt v).toInt = v ∧
      executeGroups (opcodeOf i) i.toRecord.arg (s.operandFetched i da dr) =
        .completed ((s.operandFetched i da dr).accumulate v (executeTicks (opcodeOf i)))) :
    Accumulates i s v := by
  obtain ⟨da, dr, hda, hdr, hexec⟩ := exec_of_operandLegal hm hw hl
  obtain ⟨halu, hdone⟩ := hgroups da dr hdr
  rw [hdone, Group.finish_completed] at hexec
  have hacc : (Word.ofInt (wrap32 (AluWord.ofInt v).toInt)).toInt = wrap32 v := by rw [halu, toInt_ofInt_wrap32]
  have hovf : (s.ovf || overflows (AluWord.ofInt v).toInt) = true ↔
      s.ovf = true ∨ (Word.ofInt (wrap32 (AluWord.ofInt v).toInt)).toInt ≠ v := by
    rw [hacc, halu, or_overflows_iff]
  refine ⟨_, hexec, halu, hacc, hovf, hdr, hda, rfl, ?tick, ⟨rfl, rfl, rfl, rfl, rfl⟩, fun _ => rfl, ⟨rfl, rfl⟩,
    ⟨rfl, rfl, rfl, rfl, rfl⟩⟩
  case tick =>
    rw [tickTotal_of_memoryOperand hm, ← Nat.add_assoc]
    rfl

/-- A value that fits ACC sets no overflow: OVF stays as it was (R154, R157). -/
theorem ovf_eq_of_fits {b c : Bool} {acc : Int} (hf : fitsWord v = true) (hacc : acc = wrap32 v)
    (hovf : c = true ↔ b = true ∨ acc ≠ v) : c = b := by
  have heq : acc = v := hacc.trans (wrap32_of_fits hf)
  rw [or_iff_left (not_not_intro heq)] at hovf
  exact Bool.eq_iff_iff.2 hovf

/-! ### The opcodes that accumulate -/

/-- LD accumulates its operand (R140). -/
theorem ld_accumulates (hop : opcodeOf i = .ld) (hw : i.wf = true) (hl : OperandLegal s i) :
    Accumulates i s (operandOf s i) := by
  refine accumulates_of_executeGroups (by rw [hop]; rfl) hw hl fun da dr hdr => ?_
  rw [hop, ← hdr]
  exact ⟨AluWord.toInt_pass dr, loadGroup_accumulates _⟩

/-- ADD accumulates the exact sum (R150). -/
theorem add_accumulates (hop : opcodeOf i = .add) (hw : i.wf = true) (hl : OperandLegal s i) :
    Accumulates i s (s.acc.toInt + operandOf s i) := by
  refine accumulates_of_executeGroups (by rw [hop]; rfl) hw hl fun da dr hdr => ?_
  rw [hop, ← hdr]
  exact ⟨AluWord.toInt_sum s.acc dr, addGroups_accumulate _⟩

/-- SUB and CMP accumulate the exact difference (R151, R152). -/
theorem subtract_accumulates (hop : opcodeOf i = .sub ∨ opcodeOf i = .cmp) (hw : i.wf = true)
    (hl : OperandLegal s i) : Accumulates i s (s.acc.toInt - operandOf s i) := by
  have hm : (opcodeOf i).isMemoryOperand = true := by rcases hop with hop | hop <;> rw [hop] <;> rfl
  refine accumulates_of_executeGroups hm hw hl fun da dr hdr => ?_
  rw [← hdr]
  refine ⟨AluWord.toInt_difference s.acc dr, ?_⟩
  rcases hop with hop | hop <;> rw [hop] <;> exact subtractGroups_accumulate _

/-- A remainder by a register's value fits the ALU latch, as it fits ACC (R156). -/
theorem toInt_alu_remainder (c : Config.Remainder) (x : Int) {y : Word} (h : y.toInt ≠ 0) :
    (AluWord.ofInt (remainder c x y.toInt)).toInt = remainder c x y.toInt := by
  obtain ⟨lo, hi⟩ := (fitsWord_iff _).1 (fitsWord_remainder c x h)
  simp only [Config.min32, Config.max32] at lo hi
  exact AluWord.toInt_ofInt (by omega) (by omega)

/-- DIV accumulates the remainder by a non-zero operand (R153). -/
theorem div_accumulates (hop : opcodeOf i = .div) (hw : i.wf = true) (hl : OperandLegal s i)
    (hz : operandOf s i ≠ 0) : Accumulates i s (remainder s.rem s.acc.toInt (operandOf s i)) := by
  refine accumulates_of_executeGroups (by rw [hop]; rfl) hw hl fun da dr hdr => ?_
  rw [← hdr] at hz ⊢
  rw [hop]
  exact ⟨toInt_alu_remainder _ _ hz, remainderGroups_accumulate hz⟩

end

/-! ### The remainder -/

/-- The floored remainder by a positive divisor (R156). -/
theorem fmod_eq_iff_of_pos {x y r : Int} (hy : 0 < y) : Int.fmod x y = r ↔ (∃ q, x = q * y + r) ∧ 0 ≤ r ∧ r < y := by
  have hunique (q : Int) := Int.fdiv_fmod_unique (a := x) (r := r) (q := q) hy
  constructor
  · intro h
    obtain ⟨hx, hr⟩ := (hunique _).1 ⟨rfl, h⟩
    exact ⟨⟨_, by rw [← hx, mul_comm, add_comm]⟩, hr⟩
  · rintro ⟨⟨q, hx⟩, hr⟩
    exact ((hunique q).2 ⟨by rw [hx, mul_comm, add_comm], hr⟩).2

/-- The floored remainder by a negative divisor (R156). -/
theorem fmod_eq_iff_of_neg {x y r : Int} (hy : y < 0) : Int.fmod x y = r ↔ (∃ q, x = q * y + r) ∧ y < r ∧ r ≤ 0 := by
  have hunique (q : Int) := Int.fdiv_fmod_unique' (a := x) (r := r) (q := q) hy
  constructor
  · intro h
    obtain ⟨hx, hr⟩ := (hunique _).1 ⟨rfl, h⟩
    exact ⟨⟨_, by rw [← hx, mul_comm, add_comm]⟩, hr⟩
  · rintro ⟨⟨q, hx⟩, hr⟩
    exact ((hunique q).2 ⟨by rw [hx, mul_comm, add_comm], hr⟩).2

/-- On a non-negative dividend and a positive divisor every convention is the Euclidean one (R156). -/
theorem remainder_eq_emod (c : Config.Remainder) {x y : Int} (hx : 0 ≤ x) (hy : 0 < y) : remainder c x y = x % y := by
  cases c with
  | floored => exact Int.fmod_eq_emod_of_nonneg x hy.le
  | truncated => exact Int.tmod_eq_emod_of_nonneg hx
  | euclidean => rfl

/-! ### The statements -/

/-- Settles O15: the operand fits ACC, so neither wrap nor OVF changes. -/
theorem ldLoadsTheOperand : Obligations.LdLoadsTheOperand := by
  intro i s hop hw hl
  obtain ⟨t, ht, halu, hacc, hovf, hdr, hda, hpc, htick, hframe⟩ := ld_accumulates hop hw hl
  have hf : fitsWord (operandOf s i) = true := hdr ▸ Word.fitsWord_toInt t.dr
  exact ⟨t, ht, hacc.trans (wrap32_of_fits hf), hdr, halu, hda, hpc, htick, ovf_eq_of_fits hf hacc hovf, hframe⟩

/-- Settles O16: the operand in DR is a legal address, and the write there is the only one. -/
theorem stStoresAccAtTheOperand : Obligations.StStoresAccAtTheOperand := by
  intro i s hop hw hwf hl hlegal
  have hm : (opcodeOf i).isMemoryOperand = true := by rw [hop]; rfl
  obtain ⟨da, dr, -, hdr, hexec⟩ := exec_of_operandLegal hm hw hl
  rw [← hdr] at hlegal ⊢
  have hlatched : (s.operandFetched i da dr).legalAddress dr = true := (s.legalAddress_iff dr).2 hlegal
  rw [hop, executeGroups, storeGroups_of_legal hlatched, Group.finish_completed] at hexec
  refine ⟨_, hexec, fun a => ?memory, rfl, rfl, rfl, rfl, rfl, rfl, ?tick, ⟨rfl, rfl, rfl, rfl, rfl⟩, ⟨rfl, rfl⟩,
    ⟨rfl, rfl, rfl, rfl, rfl⟩⟩
  case memory =>
    rw [if_congr (Word.natCast_eq_toInt_iff hlegal.1 a) rfl rfl]
    exact Memory.read_write dr.toNat a s.acc hwf
  case tick =>
    rw [tickTotal_of_memoryOperand hm, hop, ← Nat.add_assoc]
    rfl

/-- Settles O17: the first execute group of ST refuses the operand in DR. -/
theorem stOfAnIllegalAddressFaults : Obligations.StOfAnIllegalAddressFaults := by
  intro i s hop hw hl hillegal
  obtain ⟨da, dr, hda, hdr, hexec⟩ := exec_of_operandLegal (by rw [hop]; rfl) hw hl
  rw [← hdr] at hillegal
  have hrefused : ¬ (s.operandFetched i da dr).legalAddress dr = true := mt (s.legalAddress_iff dr).1 hillegal
  rw [hop, executeGroups, storeGroups_of_not_legal hrefused, Group.finish_faulted] at hexec
  exact ⟨_, hexec, hdr, hda, rfl⟩

/-- Settles O18: a refused argument or pointer faults in operand fetch, for every opcode. -/
theorem illegalOperandAddressFaults : Obligations.IllegalOperandAddressFaults := by
  intro i s hm hw
  have hf : fitsWord i.toRecord.arg = true := (i.wf_iff).1 hw
  refine ⟨fun hmode hillegal => exec_of_operandFetch_faulted ?argument,
    fun hmode hlegal hillegal => exec_of_operandFetch_faulted ?pointer⟩
  case argument =>
    rcases hmode with hmode | hmode
    · rw [operandFetch_of_direct hm hmode, fetchDirect_of_not_legal hf hillegal]
      rfl
    · rw [operandFetch_of_indirect hm hmode, fetchIndirect_of_not_legal hf hillegal]
      rfl
  case pointer =>
    rw [operandFetch_of_indirect hm hmode, fetchIndirect_of_legal hf hlegal,
      if_neg (mt (s.legalAddress_read_iff _).1 hillegal)]
    rfl

/-- Settles O21: ADD accumulates the exact sum. -/
theorem addAddsTheOperand : Obligations.AddAddsTheOperand :=
  fun _ _ hop hw hl => add_accumulates hop hw hl

/-- Settles O22: SUB and CMP accumulate the exact difference. -/
theorem subAndCmpSubtractTheOperand : Obligations.SubAndCmpSubtractTheOperand :=
  fun _ _ hop hw hl => subtract_accumulates hop hw hl

/-- Settles O23: the remainder fits ACC, so neither wrap nor OVF changes. -/
theorem divLeavesTheRemainder : Obligations.DivLeavesTheRemainder := by
  intro i s hop hw hl hz
  obtain ⟨t, ht, halu, hacc, hovf, hdr, hframe⟩ := div_accumulates hop hw hl hz
  have hf : fitsWord (remainder s.rem s.acc.toInt (operandOf s i)) = true := by
    rw [← hdr] at hz ⊢
    exact fitsWord_remainder s.rem s.acc.toInt hz
  have hexact := hacc.trans (wrap32_of_fits hf)
  exact ⟨t, ht, hexact, halu.trans hexact.symm, ovf_eq_of_fits hf hacc hovf, hdr, hframe⟩

/-- Settles O24: the first execute group of DIV refuses the 0 in DR. -/
theorem divByZeroFaults : Obligations.DivByZeroFaults := by
  intro i s hop hw hl hz
  obtain ⟨da, dr, hda, hdr, hexec⟩ := exec_of_operandLegal (by rw [hop]; rfl) hw hl
  have hzero : dr = 0#32 := BitVec.eq_of_toInt_eq (hdr.trans hz)
  subst hzero
  have hrefused : (s.operandFetched i da 0#32).dr.toInt = 0 := rfl
  rw [hop, executeGroups, remainderGroups_of_zero hrefused, Group.finish_faulted] at hexec
  exact ⟨_, hexec, hda, rfl⟩

/-- Settles O25: uniqueness by the sign of the divisor, agreement through the Euclidean remainder, and the size of a
remainder below its divisor's. -/
theorem remainderLaw : Obligations.RemainderLaw := by
  refine ⟨fun x y r hy => ?unique, fun c d x y hx hy => ?agree, fun c x y hy => ?fits⟩
  case unique =>
    rcases lt_or_gt_of_ne hy with hneg | hpos
    · rw [remainder, fmod_eq_iff_of_neg hneg]
      simp [hneg, hneg.not_gt]
    · rw [remainder, fmod_eq_iff_of_pos hpos]
      simp [hpos, hpos.not_gt]
  case agree => rw [remainder_eq_emod c hx hy, remainder_eq_emod d hx hy]
  case fits =>
    have hsmall := remainder_natAbs_lt c x.toInt hy
    have hlo := Word.min_le_toInt y
    have hhi := Word.toInt_le_max y
    omega

/-- Settles O28: a difference in range is in ACC as it is, and its sign is the order of the two values. -/
theorem compareThenBranch : Obligations.CompareThenBranch := by
  intro i s t hop hw hl h lo hi
  obtain ⟨t', ht', -, hacc, -⟩ := subtract_accumulates (.inr hop) hw hl
  obtain rfl : t' = t := Host.Outcome.next.inj (ht'.symm.trans h)
  rw [wrap32_of_fits ((fitsWord_iff _).2 ⟨lo, hi⟩)] at hacc
  rw [branchLE_iff, branchGE_iff, branchN_iff, branchZ_iff, branchNZ_iff, hacc]
  exact ⟨sub_pos, sub_neg, sub_nonneg, sub_eq_zero, sub_ne_zero⟩

end Sys2Proof.Machine

/-! PROOF. The state that every jump leaves, and the statements of spec/43_control_transfer.md and
spec/10_state.md on the jumps' frame and the flags. -/

namespace Sys2Proof.Machine

/-- An instruction that fetches no operand is its execute groups (R110). -/
theorem exec_of_no_operand {i : Instr} (s : State) (hm : (opcodeOf i).isMemoryOperand = false) :
    exec i s = (executeGroups (opcodeOf i) i.toRecord.arg s).finish (opcodeOf i == .hlt) := by
  rw [exec_eq, operandFetch, if_neg (by rw [hm]; exact nofun), Group.andThen_completed]

/-- Every jump leaves its `afterJump` state, taken or not (R170 to R178). -/
theorem exec_jump {i : Instr} (s : State) (hop : opcodeOf i ∈ [Opcode.jmp, .jz, .jnz, .jn, .jle, .jge]) :
    ∃ branch, exec i s = .next (s.afterJump branch i.toRecord.arg) := by
  have hgroup : (opcodeOf i).isMemoryOperand = false ∧ (opcodeOf i == .hlt) = false ∧
      ∃ branch, executeGroups (opcodeOf i) i.toRecord.arg s = jumpGroup branch i.toRecord.arg s := by
    generalize opcodeOf i = op at hop
    fin_cases hop <;> exact ⟨rfl, rfl, _, rfl⟩
  obtain ⟨hm, hhlt, branch, hjump⟩ := hgroup
  refine ⟨branch, ?_⟩
  rw [exec_of_no_operand s hm, hhlt, hjump, jumpGroup_finish]

/-- Settles O27: the `afterJump` state differs in PC, TICK and what completion counts. -/
theorem jumpsTouchOnlyPcAndTick : Obligations.JumpsTouchOnlyPcAndTick := by
  intro i s t hop h
  obtain ⟨branch, hjump⟩ := exec_jump s hop
  obtain rfl : s.afterJump branch i.toRecord.arg = t := Host.Outcome.next.inj (hjump.symm.trans h)
  refine ⟨rfl, ⟨rfl, rfl, rfl, rfl, rfl⟩, ?target⟩
  case target =>
    cases branch with
    | true => exact .inl rfl
    | false => exact .inr rfl

/-- Settles O29: the flags are comparisons of ACC with 0. -/
theorem flagsArePredicatesOverAcc : Obligations.FlagsArePredicatesOverAcc := by
  refine ⟨fun acc => ⟨zeroFlag_iff acc, negativeFlag_iff acc, fun ⟨hz, hn⟩ => ?_⟩, rfl, rfl⟩
  rw [zeroFlag_iff] at hz
  rw [negativeFlag_iff] at hn
  omega

end Sys2Proof.Machine

/-! PROOF. The groups of IN and OUT where they complete and where they fault, and the statements of
spec/44_io_and_halt.md. -/

namespace Sys2Proof.Machine

/-! ### The groups of IN and OUT -/

section
variable {s : State}

theorem inputGroup_of_some {c : CharCode} (h : s.input[s.inCur]? = some c) :
    inputGroup s = .completed { s with
      acc := Word.ofInt c.val, inCur := s.inCur + 1, pc := s.pc + 1#32, tick := s.tick + 1 } := by
  rw [inputGroup_eq, h]

theorem inputGroup_of_none (h : s.input[s.inCur]? = none) :
    inputGroup s = .faulted (s.raiseFault .endOfInput 0#32) := by
  rw [inputGroup_eq, h]

theorem outputGroup_of_some {c : CharCode} (h : charCode s.acc = some c) :
    outputGroup s = .completed { s with output := s.output ++ [c], pc := s.pc + 1#32, tick := s.tick + 1 } := by
  rw [outputGroup_eq, h]

theorem outputGroup_of_none (h : charCode s.acc = none) :
    outputGroup s = .faulted (s.raiseFault .outputRange s.acc) := by
  rw [outputGroup_eq, h]

/-- A value in range is a character's code (R126). -/
theorem charCode_of_range {acc : Word} (lo : 0 ≤ acc.toInt) (hi : acc.toInt ≤ 1114111) :
    ∃ c, charCode acc = some c ∧ (c.val : Int) = acc.toInt := by
  cases hc : charCode acc with
  | some c =>
    obtain ⟨-, -, hval⟩ := charCode_some hc
    exact ⟨c, rfl, hval⟩
  | none =>
    rw [charCode_none] at hc
    omega

/-- OUT and OUTC are one group (R191, R192). -/
theorem exec_out_or_outc {i : Instr} (s : State) (hop : opcodeOf i = .out ∨ opcodeOf i = .outc) :
    exec i s = (outputGroup s).finish false := by
  have hm : (opcodeOf i).isMemoryOperand = false := by rcases hop with hop | hop <;> rw [hop] <;> rfl
  rw [exec_of_no_operand s hm]
  rcases hop with hop | hop <;> rw [hop] <;> rfl

end

/-! ### The statements -/

/-- Settles O30: the code fits ACC, and a code is not negative. -/
theorem inReadsTheNextCharacter : Obligations.InReadsTheNextCharacter := by
  intro m arg s c hc
  have hexec : exec (.inp m arg) s = (inputGroup s).finish false := rfl
  rw [inputGroup_of_some hc, Group.finish_completed] at hexec
  have hacc : (Word.ofInt (c.val : Int)).toInt = c.val := Word.toInt_ofInt (Word.fitsWord_charCode c)
  refine ⟨_, hexec, hacc, rfl, rfl, rfl, rfl, ?notNegative, rfl, ⟨rfl, rfl, rfl, rfl, rfl⟩, ⟨rfl, rfl, rfl⟩,
    fun _ => rfl, ⟨rfl, rfl, rfl, rfl, rfl⟩⟩
  case notNegative =>
    rw [← Bool.not_eq_true, negativeFlag_iff, State.complete_acc, hacc]
    omega

/-- Settles O31: past the end there is no element to read. -/
theorem inPastTheEndFaults : Obligations.InPastTheEndFaults := by
  intro m arg s hend
  have hexec : exec (.inp m arg) s = (inputGroup s).finish false := rfl
  rw [hexec, inputGroup_of_none (List.getElem?_eq_none hend)]
  rfl

/-- Settles O32: the group of OUT appends the code that ACC is. -/
theorem outAppendsTheCharacter : Obligations.OutAppendsTheCharacter := by
  intro i s hop lo hi
  obtain ⟨c, hc, hval⟩ := charCode_of_range lo hi
  have hexec := exec_out_or_outc s hop
  rw [outputGroup_of_some hc, Group.finish_completed] at hexec
  exact ⟨_, c, hexec, hval, rfl, rfl, rfl, rfl, rfl, rfl, ⟨rfl, rfl, rfl, rfl, rfl⟩, ⟨rfl, rfl, rfl⟩, fun _ => rfl,
    ⟨rfl, rfl, rfl, rfl, rfl⟩⟩

/-- Settles O33: the group of OUT refuses a value that is no code. -/
theorem outOfNoCharacterFaults : Obligations.OutOfNoCharacterFaults := by
  intro i s hop hrange
  rw [exec_out_or_outc s hop, outputGroup_of_none (charCode_none.2 hrange)]
  rfl

/-- Settles O34: HLT is its tick and the completion that halts. -/
theorem hltHalts : Obligations.HltHalts := fun _ _ _ => rfl

end Sys2Proof.Machine

/-! PROOF. What an instruction leaves when it faults and when it completes, and the statements on all instructions
that rest on them (spec/40_instruction_cycle.md, spec/60_exceptions.md, spec/10_state.md). -/

namespace Sys2Proof.Machine

/-! ### The two ends of an instruction -/

/-- The instruction ends in a fault, of its operand fetch or of its execute groups (R110, R208). -/
def InstrFaults (i : Instr) (s t : State) : Prop :=
  operandFetch i s = .faulted t ∨
  ∃ u, operandFetch i s = .completed u ∧ executeGroups (opcodeOf i) i.toRecord.arg u = .faulted t

/-- The instruction completes: its operand fetch, its execute groups and the completion of R113. -/
def InstrCompletes (i : Instr) (s t : State) : Prop :=
  ∃ u v, operandFetch i s = .completed u ∧ executeGroups (opcodeOf i) i.toRecord.arg u = .completed v ∧
    t = v.complete (opcodeOf i == .hlt)

theorem exec_faults_or_completes {i : Instr} {s t : State} (h : exec i s = .next t) :
    InstrFaults i s t ∨ InstrCompletes i s t := by
  rcases exec_cases h with hf | hf | hc
  · exact .inl (.inl hf)
  · exact .inl (.inr hf)
  · exact .inr hc

/-- The ticks of an operand fetch that completes (R118). -/
def operandTicks (i : Instr) : Nat := if (opcodeOf i).isMemoryOperand then fetchTicks i.toRecord.mode else 0

theorem fetchTicks_le (m : Mode) : fetchTicks m ≤ 4 := by cases m <;> decide

theorem operandTicks_le (i : Instr) : operandTicks i ≤ 4 := by
  unfold operandTicks
  split
  case isTrue => exact fetchTicks_le _
  case isFalse => exact Nat.zero_le _

theorem executeTicks_range (op : Opcode) : 1 ≤ executeTicks op ∧ executeTicks op ≤ 2 := by cases op <;> decide

/-- An instruction costs at least one tick and at most six (R214). -/
theorem tickTotal_range (i : Instr) : 1 ≤ tickTotal i ∧ tickTotal i ≤ 6 := by
  have htotal : tickTotal i = operandTicks i + executeTicks (opcodeOf i) := rfl
  have hfetch := operandTicks_le i
  have hexecute := executeTicks_range (opcodeOf i)
  omega

/-- Operand fetch changes DA, DR and TICK alone. -/
theorem operandFetch_frame {i : Instr} {s u : State} (h : operandFetch i s = .completed u) :
    ∃ da dr, u = { s with da := da, dr := dr, tick := s.tick + operandTicks i } :=
  ⟨u.da, u.dr, operandFetch_completed h⟩

/-! ### An instruction that faults -/

namespace InstrFaults

variable {i : Instr} {s t : State}

/-- A fault is precise: only DA, DR, at most four ticks and the fault registers change (R208). -/
theorem frame (h : InstrFaults i s t) :
    ∃ da dr tick cause info, s.tick ≤ tick ∧ tick ≤ s.tick + 4 ∧ t =
      { s with da := da, dr := dr, tick := tick, runState := .faulted, faultCause := cause, faultInfo := info } := by
  rcases h with hf | ⟨u, hu, hf⟩
  · obtain ⟨-, lo, hi, ht⟩ := operandFetch_faulted hf
    exact ⟨_, _, _, _, _, lo, by omega, ht⟩
  · obtain ⟨da, dr, rfl⟩ := operandFetch_frame hu
    have hticks := operandTicks_le i
    exact ⟨da, dr, _, _, _, Nat.le_add_right _ _, by omega, (executeGroups_faulted hf).1⟩

/-- The cause is one of the instruction's own (R201). -/
theorem cause (h : InstrFaults i s t) :
    (t.faultCause = .outOfMemoryAddress ∧ (opcodeOf i).isMemoryOperand = true) ∨
    (t.faultCause = .divisionByZero ∧ opcodeOf i = .div ∧ t.faultInfo = 0#32 ∧ t.dr = 0#32) ∨
    (t.faultCause = .endOfInput ∧ opcodeOf i = .inp ∧ t.faultInfo = 0#32) ∨
    (t.faultCause = .outputRange ∧ (opcodeOf i = .out ∨ opcodeOf i = .outc) ∧ t.faultInfo = s.acc) := by
  rcases h with hf | ⟨u, hu, hf⟩
  · obtain ⟨hm, -, -, ht⟩ := operandFetch_faulted hf
    exact .inl ⟨by rw [ht], hm⟩
  · obtain ⟨da, dr, rfl⟩ := operandFetch_frame hu
    obtain ⟨ht, hcause⟩ := executeGroups_faulted hf
    have hdr : t.dr = dr := by rw [ht]
    rcases hcause with ⟨hop, hc, -, -⟩ | ⟨hop, hc, hinfo, hzero⟩ | ⟨hop, hc, hinfo, -⟩ | ⟨hop, hc, hinfo, -⟩
    · exact .inl ⟨hc, by rw [hop]; rfl⟩
    · exact .inr (.inl ⟨hc, hop, hinfo, hdr.trans hzero⟩)
    · exact .inr (.inr (.inl ⟨hc, hop, hinfo⟩))
    · exact .inr (.inr (.inr ⟨hc, hop, hinfo⟩))

theorem cause_ne_none (h : InstrFaults i s t) : t.faultCause ≠ .none := by
  rcases h.cause with ⟨hc, -⟩ | ⟨hc, -⟩ | ⟨hc, -⟩ | ⟨hc, -⟩ <;> rw [hc] <;> exact nofun

/-- DA is as it was or an address that was checked (R22). -/
theorem da (h : InstrFaults i s t) : t.da = s.da ∨ s.legalAddress t.da = true := by
  rcases h with hf | ⟨u, hu, hf⟩
  · exact operandFetch_da (.inr hf)
  · have hda : t.da = u.da := by rw [(executeGroups_faulted hf).1]
    rw [hda]
    exact operandFetch_da (.inl hu)

theorem runState (h : InstrFaults i s t) : t.runState = .faulted := by
  obtain ⟨da, dr, tick, cause, info, -, -, rfl⟩ := h.frame
  rfl

end InstrFaults

/-! ### An instruction that completes -/

namespace InstrCompletes

variable {i : Instr} {s t : State}

/-- One instruction and its ticks are counted (R113, R118). -/
theorem counts (h : InstrCompletes i s t) : t.icount = s.icount + 1 ∧ t.tick = s.tick + tickTotal i := by
  obtain ⟨u, v, hu, hv, rfl⟩ := h
  obtain ⟨da, dr, rfl⟩ := operandFetch_frame hu
  obtain ⟨htick, hicount, -⟩ := executeGroups_completed hv
  exact ⟨congrArg (· + 1) hicount, htick.trans (Nat.add_assoc _ _ _)⟩

/-- HLT halts, the limit stops, and otherwise the core goes on as it was (R113, R212). -/
theorem runState (h : InstrCompletes i s t) :
    t.runState = if opcodeOf i = .hlt then .halted else if s.icount + 1 = s.limit then .wdogStopped else s.runState := by
  obtain ⟨u, v, hu, hv, rfl⟩ := h
  obtain ⟨da, dr, rfl⟩ := operandFetch_frame hu
  obtain ⟨-, hicount, hrun, -, -, -, ⟨-, -, -, hlimit, -⟩, -⟩ := executeGroups_completed hv
  rw [State.complete_runState, hicount, hlimit, hrun]
  exact if_congr beq_iff_eq rfl rfl

/-- The fault registers and IR are as before (R26, R30). -/
theorem faultRegisters (h : InstrCompletes i s t) :
    t.faultCause = s.faultCause ∧ t.faultInfo = s.faultInfo ∧ t.ir = s.ir := by
  obtain ⟨u, v, hu, hv, rfl⟩ := h
  obtain ⟨da, dr, rfl⟩ := operandFetch_frame hu
  obtain ⟨-, -, -, hcause, hinfo, hir, -⟩ := executeGroups_completed hv
  exact ⟨hcause, hinfo, hir⟩

/-- HLT leaves PC at its own index (R193). -/
theorem hlt_pc (h : InstrCompletes i s t) (hop : opcodeOf i = .hlt) : t.pc = s.pc := by
  obtain ⟨u, v, hu, hv, rfl⟩ := h
  obtain ⟨da, dr, rfl⟩ := operandFetch_frame hu
  obtain ⟨-, -, -, -, -, -, -, -, -, -, -, hpc⟩ := executeGroups_completed hv
  exact hpc hop

/-- Which opcodes write DMEM, the cursor and OUTPUT (R34, R36, R37). -/
theorem writers (h : InstrCompletes i s t) :
    (opcodeOf i ≠ .st → t.dmem = s.dmem) ∧ (opcodeOf i ≠ .inp → t.inCur = s.inCur) ∧
    (opcodeOf i ≠ .out → opcodeOf i ≠ .outc → t.output = s.output) ∧
    (t.output = s.output ∨ ∃ c, t.output = s.output ++ [c]) := by
  obtain ⟨u, v, hu, hv, rfl⟩ := h
  obtain ⟨da, dr, rfl⟩ := operandFetch_frame hu
  obtain ⟨-, -, -, -, -, -, -, hdmem, hcur, hout, happend, -⟩ := executeGroups_completed hv
  exact ⟨hdmem, hcur, hout, happend⟩

/-- The cursor stays, or moves past an element that there is (R36). -/
theorem cursor (h : InstrCompletes i s t) :
    t.inCur = s.inCur ∨ (t.inCur = s.inCur + 1 ∧ s.inCur < s.input.length) := by
  obtain ⟨u, v, hu, hv, rfl⟩ := h
  obtain ⟨da, dr, rfl⟩ := operandFetch_frame hu
  exact (executeGroups_memory hv).2

/-- DA is as it was or an address that was checked (R22), and a store writes at an address that was (R64). -/
theorem memory (h : InstrCompletes i s t) :
    (t.da = s.da ∨ s.legalAddress t.da = true) ∧
    (t.dmem = s.dmem ∨ ∃ a v, s.legalAddress a = true ∧ t.dmem = s.dmem.write a.toNat v) := by
  obtain ⟨u, v, hu, hv, rfl⟩ := h
  have hfetch := operandFetch_da (.inl hu)
  obtain ⟨da, dr, rfl⟩ := operandFetch_frame hu
  rcases (executeGroups_memory hv).1 with ⟨hdmem, hda⟩ | ⟨hlegal, hda, hdmem⟩
  · rw [← hda] at hfetch
    exact ⟨hfetch, .inl hdmem⟩
  · have hchecked : s.legalAddress dr = true := hlegal
    refine ⟨.inr ?_, .inr ⟨dr, _, hchecked, hdmem⟩⟩
    rw [State.complete_da, hda]
    exact hchecked

/-- The opcodes that latch ACC from the ALU set OVF when the wrap changes the value, LD and DIV never do, and no
other opcode touches it (R157). -/
theorem ovf (h : InstrCompletes i s t) :
    (opcodeOf i ∈ [Opcode.add, .sub, .cmp] → t.ovf = (s.ovf || overflows t.alu.toInt)) ∧
    (opcodeOf i ∉ [Opcode.add, .sub, .cmp] → t.ovf = s.ovf) := by
  obtain ⟨u, v, hu, hv, rfl⟩ := h
  obtain ⟨da, dr, rfl⟩ := operandFetch_frame hu
  obtain ⟨hlatch, hother, hexact, -⟩ := executeGroups_acc hv
  constructor
  · intro hop
    refine (hlatch ?_).2
    simp only [List.mem_cons, List.not_mem_nil, or_false] at hop ⊢
    tauto
  · intro hop
    by_cases hfits : opcodeOf i = .ld ∨ opcodeOf i = .div
    · exact hexact hfits
    · refine (hother ?_).1
      simp only [List.mem_cons, List.not_mem_nil, or_false] at hop ⊢
      tauto

/-- A core that goes on is not at its limit (R212). -/
theorem ne_limit_of_running (h : InstrCompletes i s t) (hgo : t.runState = .running) : s.icount + 1 ≠ s.limit := by
  intro hlimit
  rw [h.runState, if_pos hlimit] at hgo
  split at hgo <;> cases hgo

section
variable (h : InstrCompletes i s t) (hr : s.runState = .running)
include h hr

/-- A RUNNING core that completes an instruction does not end FAULTED. -/
theorem runState_ne_faulted : t.runState ≠ .faulted := by
  rw [h.runState, hr]
  split
  · exact nofun
  · split <;> exact nofun

/-- It ends WDOG_STOPPED only at its limit (R212). -/
theorem at_limit_of_wdogStopped (hstop : t.runState = .wdogStopped) : s.icount + 1 = s.limit := by
  by_contra hne
  rw [h.runState, if_neg hne, hr] at hstop
  split at hstop <;> cases hstop

/-- It ends HALTED only by HLT (R193). -/
theorem hlt_of_halted (hhalt : t.runState = .halted) : opcodeOf i = .hlt := by
  by_contra hne
  rw [h.runState, if_neg hne, hr] at hhalt
  split at hhalt <;> cases hhalt

end

end InstrCompletes

/-- From a RUNNING core the FAULTED state is that of an instruction that faults. -/
theorem exec_faulted {i : Instr} {s t : State} (hr : s.runState = .running) (h : exec i s = .next t)
    (hf : t.runState = .faulted) : InstrFaults i s t :=
  (exec_faults_or_completes h).resolve_right fun hc => hc.runState_ne_faulted hr hf

/-! ### The statements -/

/-- Settles O35: what does not fault completes. -/
theorem completionCountsAndTicks : Obligations.CompletionCountsAndTicks := by
  intro i s t hr h hf
  have hc := (exec_faults_or_completes h).resolve_left fun hx => hf hx.runState
  obtain ⟨hicount, htick⟩ := hc.counts
  obtain ⟨hcause, hinfo, -⟩ := hc.faultRegisters
  obtain ⟨lo, hi⟩ := tickTotal_range i
  refine ⟨hicount, htick, lo, hi, ?_, hcause, hinfo⟩
  rw [hicount, ← hr]
  exact hc.runState

/-- Settles O36: the frame of an instruction that faults. -/
theorem faultsArePrecise : Obligations.FaultsArePrecise := by
  intro i s t hr h hf
  have hx := exec_faulted hr h hf
  have hcause := hx.cause_ne_none
  obtain ⟨da, dr, tick, cause, info, lo, hi, rfl⟩ := hx.frame
  exact ⟨rfl, hcause, lo, hi⟩

/-- Settles O37: the causes of an instruction that faults. -/
theorem causesBelongToTheirInstructions : Obligations.CausesBelongToTheirInstructions :=
  fun _ _ _ hr h hf => (exec_faulted hr h hf).cause

/-- Settles O38: a fault writes none of them, and a completed instruction only its own. -/
theorem onlyTheirInstructionsWriteMemoryAndInOut : Obligations.OnlyTheirInstructionsWriteMemoryAndInOut := by
  intro i s t h
  have hparams := exec_sameParameters h
  rcases exec_faults_or_completes h with hx | hc
  · obtain ⟨da, dr, tick, cause, info, -, -, rfl⟩ := hx.frame
    exact ⟨fun _ => rfl, fun _ => rfl, fun _ _ => rfl, .inl rfl, rfl, hparams⟩
  · obtain ⟨hdmem, hcur, hout, happend⟩ := hc.writers
    obtain ⟨-, -, hir⟩ := hc.faultRegisters
    exact ⟨hdmem, hcur, hout, happend, hir, hparams⟩

/-- Settles O39: OVF is as it was, or joined with the overflow of an ADD, SUB or CMP. -/
theorem overflowIsStickyAndOnlyArithmeticSetsIt : Obligations.OverflowIsStickyAndOnlyArithmeticSetsIt := by
  intro i s t h
  rcases exec_faults_or_completes h with hx | hc
  · obtain ⟨da, dr, tick, cause, info, -, -, rfl⟩ := hx.frame
    exact ⟨id, fun hclear hset => absurd (hclear.symm.trans hset) nofun⟩
  · by_cases hop : opcodeOf i ∈ [Opcode.add, .sub, .cmp]
    · have hovf := hc.ovf.1 hop
      refine ⟨fun hset => by rw [hovf, hset, Bool.true_or], fun hclear hset => ⟨hop, ?_⟩⟩
      rw [hovf, hclear, Bool.false_or, overflows, Bool.or_eq_true, decide_eq_true_iff, decide_eq_true_iff] at hset
      exact hset
    · have hovf := hc.ovf.2 hop
      exact ⟨fun hset => hovf.trans hset, fun hclear hset => absurd ((hovf.trans hclear).symm.trans hset) nofun⟩

end Sys2Proof.Machine

/-! PROOF. What a step counts, the invariant over a step's ways to end, the watchdog, and the statements that rest on
them (spec/10_state.md, spec/60_exceptions.md, spec/70_reset_and_hazards.md). -/

namespace Sys2Proof.Machine

/-! ### Addresses and HLT -/

/-- HLT is the only instruction of its opcode. -/
theorem eq_hlt_of_opcodeOf {i : Instr} (h : opcodeOf i = .hlt) : ∃ m a, i = .hlt m a := by
  cases i
  case hlt m a => exact ⟨m, a, rfl⟩
  all_goals cases h

/-- A checked address is below MEM_SIZE (R64). -/
theorem State.toNat_lt_of_legal (s : State) {a : Word} (h : s.legalAddress a = true) : a.toNat < s.memSize := by
  obtain ⟨lo, hi⟩ := (s.legalAddress_iff a).1 h
  rw [Word.toNat_eq_of_nonneg lo]
  omega

/-- DA kept, or latched from an address that was checked, is in range (R22, R120). -/
theorem State.addressLegal_of_kept (s : State) {da : Word} (h : s.AddressLegal s.da.toInt)
    (hda : da = s.da ∨ s.legalAddress da = true) : s.AddressLegal da.toInt := by
  rcases hda with rfl | hchecked
  · exact h
  · exact (s.legalAddress_iff da).1 hchecked

/-! ### The invariant, by the way a step ends -/

section
variable {s : State} (h : s.Inv) (hr : s.runState = .running)
include h hr

/-- In a RUNNING core no fault is recorded (R30). -/
theorem State.Inv.faultCause_of_running : s.faultCause = .none := by
  by_contra hc
  have hf := h.faultRecorded.2 hc
  rw [hr] at hf
  cases hf

/-- In a RUNNING core TICK is at most six an instruction (R214). -/
theorem State.Inv.tick_le_of_running : s.tick ≤ 6 * s.icount := h.tickHigh (by rw [hr]; exact nofun)

/-- A fault of a RUNNING core keeps the invariant: what changes is DA, DR and IR, ticks of an operand fetch, and the
fault registers (R208). -/
theorem State.Inv.fault {da dr : Word} {ir : InstrWord} {tick : Nat} {cause : FaultCause} {info : Word}
    (hda : da = s.da ∨ s.legalAddress da = true) (hlo : s.tick ≤ tick) (hhi : tick ≤ s.tick + 4)
    (hcause : cause ≠ .none) :
    State.Inv { s with da := da, dr := dr, ir := ir, tick := tick, runState := .faulted, faultCause := cause,
                       faultInfo := info } := by
  have htick := h.tick_le_of_running hr
  have hbound : tick ≤ 6 * s.icount + 5 := by omega
  exact {
    memSizeRange := h.memSizeRange
    progRange := h.progRange
    limitRange := h.limitRange
    memoryWf := h.memoryWf
    memoryBelow := h.memoryBelow
    daRange := s.addressLegal_of_kept h.daRange hda
    cursorRange := h.cursorRange
    countBound := h.countBound
    runningBelow := nofun
    wdogAtLimit := nofun
    faultRecorded := iff_of_true rfl hcause
    infoZero := fun hnone => absurd hnone hcause
    haltedAtHlt := nofun
    tickLow := h.tickLow.trans hlo
    tickHigh := fun hne => absurd rfl hne
    tickBound := hbound }

/-- A RUNNING core that stops at its limit keeps the invariant (R212). -/
theorem State.Inv.stop (hl : s.limit ≤ s.icount) : State.Inv { s with runState := .wdogStopped } := by
  have hcause := h.faultCause_of_running hr
  exact { h with
    runningBelow := nofun
    wdogAtLimit := fun _ => h.countBound.antisymm hl
    faultRecorded := iff_of_false nofun (not_not_intro hcause)
    haltedAtHlt := nofun
    tickHigh := fun _ => h.tick_le_of_running hr }

end

/-- A completed instruction of a RUNNING core below its limit, fetched where PC points, keeps the invariant. -/
theorem InstrCompletes.inv {s t : State} {w : InstrWord} {i : Instr} (hc : InstrCompletes i { s with ir := w } t)
    (h : s.Inv) (hr : s.runState = .running) (hl : s.icount < s.limit) (hpc : 0 ≤ s.pc.toInt)
    (hw : s.prog[s.pc.toInt.toNat]? = some w) (hd : decode w = .ok i) (hp : SameParameters s t) : t.Inv := by
  obtain ⟨hprog, hinput, hsize, hlimit, -⟩ := hp
  obtain ⟨hicount, htick⟩ := hc.counts
  obtain ⟨hcause, hinfo, -⟩ := hc.faultRegisters
  obtain ⟨hda, hdmem⟩ := hc.memory
  have hcost := tickTotal_range i
  have hbefore := h.tick_le_of_running hr
  have hlow := h.tickLow
  have hnone : t.faultCause = .none := hcause.trans (h.faultCause_of_running hr)
  simp only at hicount htick
  refine {
    memSizeRange := by rw [hsize]; exact h.memSizeRange
    progRange := by rw [hprog]; exact h.progRange
    limitRange := by rw [hlimit]; exact h.limitRange
    memoryWf := ?wf
    memoryBelow := ?below
    daRange := ?da
    cursorRange := ?cursor
    countBound := by omega
    runningBelow := ?running
    wdogAtLimit := ?wdog
    faultRecorded := iff_of_false (hc.runState_ne_faulted hr) (not_not_intro hnone)
    infoZero := fun _ => hinfo.trans (h.infoZero (h.faultCause_of_running hr))
    haltedAtHlt := ?halted
    tickLow := by omega
    tickHigh := fun _ => by omega
    tickBound := by omega }
  case wf =>
    rcases hdmem with hdmem | ⟨a, v, -, hdmem⟩ <;> rw [hdmem]
    · exact h.memoryWf
    · exact Memory.wf_write _ _ h.memoryWf
  case below =>
    rw [hsize]
    rcases hdmem with hdmem | ⟨a, v, ha, hdmem⟩ <;> rw [hdmem]
    · exact h.memoryBelow
    · exact Memory.below_write v h.memoryBelow (s.toNat_lt_of_legal ha)
  case da =>
    have hlegal := s.addressLegal_of_kept h.daRange hda
    rwa [State.AddressLegal, hsize]
  case cursor =>
    rw [hinput]
    rcases hc.cursor with hcur | ⟨hcur, hlt⟩ <;> rw [hcur]
    · exact h.cursorRange
    · exact hlt
  case running =>
    intro hgo
    have hne := hc.ne_limit_of_running hgo
    simp only at hne
    omega
  case wdog =>
    intro hstop
    have heq := hc.at_limit_of_wdogStopped hr hstop
    simp only at heq
    omega
  case halted =>
    intro hhalt
    have hop := hc.hlt_of_halted hr hhalt
    obtain ⟨m, a, rfl⟩ := eq_hlt_of_opcodeOf hop
    have hsame : t.pc = s.pc := hc.hlt_pc hop
    rw [hsame, hprog]
    exact ⟨hpc, w, m, a, hw, hd⟩

/-! ### The watchdog -/

/-- A step of a RUNNING core below its limit ends the run, or counts an instruction and stays below the limit (R212). -/
theorem step_ends_or_counts {s t : State} (hl : s.icount < s.limit) (h : step s = .next t) :
    t.Ended ∨ (t.runState = .running ∧ t.icount = s.icount + 1 ∧ t.icount < t.limit ∧ t.limit = s.limit) := by
  obtain ⟨-, -, -, hlimit, -⟩ := step_sameParameters h
  obtain ⟨hr, ⟨hge, -⟩ | ⟨-, rfl⟩ | ⟨w, e, -, -, rfl⟩ | ⟨w, i, -, -, -, -, hx⟩⟩ := step_cases h
  · omega
  · exact .inl nofun
  · exact .inl nofun
  · rcases exec_faults_or_completes hx with hf | hc
    · exact .inl (by rw [State.Ended, hf.runState]; exact nofun)
    · by_cases hgo : t.runState = .running
      · obtain ⟨hicount, -⟩ := hc.counts
        have hne := hc.ne_limit_of_running hgo
        simp only at hicount hne
        exact .inr ⟨hgo, hicount, by omega, hlimit⟩
      · exact .inl hgo

/-- With `n` instructions left below the limit, a run ends within `n` steps. -/
theorem run_ends (n : Nat) {s : State} (hr : s.runState = .running) (hl : s.icount < s.limit)
    (hn : s.limit - s.icount ≤ n) : ∃ k t, k ≤ n ∧ Sys2Proof.core.run k s = .next t ∧ t.Ended := by
  induction n generalizing s with
  | zero => omega
  | succ n ih =>
    obtain ⟨u, hu⟩ := step_next_of_running hr
    rcases step_ends_or_counts hl hu with hended | ⟨hgo, hicount, hbelow, hlimit⟩
    · exact ⟨1, u, by omega, run_of_next 0 hu, hended⟩
    · obtain ⟨k, t, hk, hrun, hended⟩ := ih hgo hbelow (by omega)
      exact ⟨k + 1, t, by omega, (run_of_next k hu).trans hrun, hended⟩

/-! ### The statements -/

/-- Settles O44: the limit, a fault and a completed instruction each keep the invariant. -/
theorem everyStepKeepsTheInvariant : Obligations.EveryStepKeepsTheInvariant := by
  intro s t h hstep
  have hp := step_sameParameters hstep
  obtain ⟨hr, ⟨hl, rfl⟩ | ⟨-, rfl⟩ | ⟨w, e, -, -, rfl⟩ | ⟨w, i, hl, hpc, hw, hd, hx⟩⟩ := step_cases hstep
  · exact h.stop hr hl
  · exact h.fault hr (.inl rfl) le_rfl (Nat.le_add_right _ _) nofun
  · exact h.fault hr (.inl rfl) le_rfl (Nat.le_add_right _ _) nofun
  · rcases exec_faults_or_completes hx with hf | hc
    · have hda := hf.da
      have hcause := hf.cause_ne_none
      obtain ⟨da, dr, tick, cause, info, lo, hi, rfl⟩ := hf.frame
      exact h.fault hr hda lo hi hcause
    · exact hc.inv h hr hl hpc hw hd hp

/-- Settles O41: an instruction that faults or completes bounds what it counts, and the other steps count nothing. -/
theorem countersAndSequencesOnlyGrow : Obligations.CountersAndSequencesOnlyGrow := by
  intro s t hstep
  obtain ⟨hr, ⟨hl, rfl⟩ | ⟨-, rfl⟩ | ⟨w, e, -, -, rfl⟩ | ⟨w, i, -, -, -, -, hx⟩⟩ := step_cases hstep
  · simp
  · simp
  · simp
  · rcases exec_faults_or_completes hx with hf | hc
    · obtain ⟨da, dr, tick, cause, info, lo, hi, rfl⟩ := hf.frame
      exact ⟨lo, hi.trans (Nat.add_le_add_left (by decide) _), le_rfl, Nat.le_succ _, le_rfl, Nat.le_succ _,
        List.prefix_rfl⟩
    · obtain ⟨hicount, htick⟩ := hc.counts
      obtain ⟨-, -, -, happend⟩ := hc.writers
      have hcost := tickTotal_range i
      have hcur := hc.cursor
      simp only at hicount htick happend hcur
      refine ⟨by omega, by omega, by omega, by omega, by omega, by omega, ?_⟩
      rcases happend with hout | ⟨c, hout⟩ <;> rw [hout]
      exact List.prefix_append _ _

/-- Settles O49: each step counts an instruction until one ends the run. -/
theorem watchdogEndsEveryRun : Obligations.WatchdogEndsEveryRun :=
  fun _ hr hl => run_ends _ hr hl le_rfl

end Sys2Proof.Machine

/-! PROOF. The requirements of R242 as one predicate, what a load answers, and the statements on reset and load
(spec/10_state.md, spec/70_reset_and_hazards.md). -/

namespace Sys2Proof.Machine

/-! ### When a load is accepted -/

/-- The boot requirements that a load checks, R242 (a), (b), (c), (d), (f). -/
structure LoadParams.Meets (p : LoadParams) : Prop where
  memSizeRange : 1 ≤ p.memSize ∧ p.memSize ≤ Config.maxMemSize
  segmentLength : p.dataSeg.length ≤ p.memSize
  segmentWords : p.dataSeg.all fitsWord = true
  arguments : p.prog.all ProgEntry.argFits = true
  progLength : p.prog.length ≤ Config.maxProgLen
  limitRange : p.limit < Config.limitBound

/-- A load answers a state exactly when the requirements are met, and then the state of R39 (R219, R240). -/
theorem load_eq_ok_iff {p : LoadParams} {s : State} : load p = .ok s ↔ p.Meets ∧ s = p.initial := by
  constructor
  · intro h
    unfold load at h
    iterate 6
      split at h
      · cases h
    rename_i hmem hlength hwords hargs hprog hlimit
    rw [Bool.not_eq_true, Bool.not_eq_false', Bool.and_eq_true, decide_eq_true_iff, decide_eq_true_iff] at hmem
    rw [Bool.not_eq_true, Bool.not_eq_false'] at hwords hargs
    exact ⟨⟨hmem, not_lt.1 hlength, hwords, hargs, not_lt.1 hprog, not_le.1 hlimit⟩, (Except.ok.inj h).symm⟩
  · rintro ⟨⟨⟨lo, hi⟩, hlength, hwords, hargs, hprog, hlimit⟩, rfl⟩
    simp [load, lo, hi, hwords, hargs, hlength.not_gt, hprog.not_gt, hlimit.not_ge]

/-- The word of DMEM at every address after a load (R39, R74). -/
theorem LoadParams.cell_initial {p : LoadParams} (h : p.Meets) (a : Nat) :
    p.initial.cell a = (p.dataSeg[a]?).getD 0 := by
  have hread : p.initial.cell a = (((p.dataSeg.map Word.ofInt)[a]?).getD 0#32).toInt :=
    congrArg BitVec.toInt (Memory.read_ofSegment _ a)
  rw [hread, List.getElem?_map]
  cases hv : p.dataSeg[a]? with
  | none => rfl
  | some v => exact Word.toInt_ofInt (List.all_eq_true.1 h.segmentWords v (List.mem_of_getElem? hv))

/-! ### The invariant at the start of a run -/

/-- Requirements (a), (b), (d) and (f) are what the invariant asks of a state that has counted nothing. -/
theorem LoadParams.inv_initial {p : LoadParams} (h : p.Meets) : p.initial.Inv := by
  have hsize := h.memSizeRange
  exact {
    memSizeRange := hsize
    progRange := (List.length_map _).trans_le h.progLength
    limitRange := h.limitRange
    memoryWf := Memory.wf_ofSegment _
    memoryBelow := Memory.below_ofSegment ((List.length_map _).trans_le h.segmentLength)
    daRange := ⟨le_rfl, Int.natCast_pos.2 hsize.1⟩
    cursorRange := Nat.zero_le _
    countBound := Nat.zero_le _
    runningBelow := fun _ => (Nat.eq_zero_or_pos p.limit).symm
    wdogAtLimit := nofun
    faultRecorded := iff_of_false nofun (not_not_intro rfl)
    infoZero := fun _ => rfl
    haltedAtHlt := nofun
    tickLow := le_rfl
    tickHigh := fun _ => le_rfl
    tickBound := Nat.zero_le _ }

/-- The parameters whose load is `State.reset`: nothing loaded, the input of an empty text, the model's LIMIT. -/
def LoadParams.ofReset : LoadParams :=
  { prog := [], dataSeg := [], input := inputOfText [], memSize := Config.defaultMemSize, limit := Config.resetLimit,
    rem := .floored }

theorem LoadParams.meets_ofReset : LoadParams.ofReset.Meets :=
  ⟨⟨by decide, by decide⟩, by decide, by decide, by decide, by decide, by decide⟩

/-! ### The statements -/

/-- Settles O42: the reset state is the load of the reset parameters. -/
theorem resetMeetsTheInvariant : Obligations.ResetMeetsTheInvariant := LoadParams.inv_initial LoadParams.meets_ofReset

/-- Settles O43: an accepted load is the initial state of parameters that meet R242. -/
theorem everyLoadMeetsTheInvariant : Obligations.EveryLoadMeetsTheInvariant := by
  intro p s h
  obtain ⟨hmeets, rfl⟩ := load_eq_ok_iff.1 h
  exact LoadParams.inv_initial hmeets

/-- Settles O45: every row but DMEM's is a field of the initial state. -/
theorem loadGivesTheResetTable : Obligations.LoadGivesTheResetTable := by
  intro p s h
  obtain ⟨hmeets, rfl⟩ := load_eq_ok_iff.1 h
  exact ⟨rfl, LoadParams.cell_initial hmeets, rfl, rfl, rfl, rfl, rfl, rfl, rfl, rfl, rfl, rfl, rfl, rfl, rfl, rfl, rfl,
    rfl, rfl⟩

/-- The entries of a program have fitting arguments exactly when its records do (R242 c). -/
theorem all_argFits_iff (prog : List ProgEntry) :
    prog.all ProgEntry.argFits = true ↔
      ∀ r, ProgEntry.record r ∈ prog → Config.min32 ≤ r.arg ∧ r.arg ≤ Config.max32 := by
  rw [List.all_eq_true]
  refine ⟨fun h r hr => (fitsWord_iff _).1 (h _ hr), fun h e he => ?_⟩
  cases e with
  | record r => exact (fitsWord_iff _).2 (h r he)
  | word w => rfl

/-- Settles O46: the requirements a load checks, with the bounds written out. -/
theorem loadIsRefusedExactlyOutsideTheRequirements : Obligations.LoadIsRefusedExactlyOutsideTheRequirements := by
  intro p
  have hwords : p.dataSeg.all fitsWord = true ↔ ∀ v ∈ p.dataSeg, Config.min32 ≤ v ∧ v ≤ Config.max32 := by
    rw [List.all_eq_true]
    exact forall₂_congr fun v _ => fitsWord_iff v
  constructor
  · rintro ⟨s, hs⟩
    obtain ⟨hmem, hlength, hseg, hargs, hprog, hlimit⟩ := (load_eq_ok_iff.1 hs).1
    exact ⟨hmem, ⟨hlength, hwords.1 hseg⟩, (all_argFits_iff _).1 hargs, hprog, hlimit⟩
  · rintro ⟨hmem, ⟨hlength, hseg⟩, hargs, hprog, hlimit⟩
    exact ⟨_, load_eq_ok_iff.2 ⟨⟨hmem, hlength, hwords.2 hseg, (all_argFits_iff _).2 hargs, hprog, hlimit⟩, rfl⟩⟩

end Sys2Proof.Machine

/-! PROOF. Relations between two states that every group keeps, and the two statements on what nothing reads: DA, DR,
ALU and IR between instructions (R38), TICK and OVF at all (R28, R31, R246). -/

namespace Sys2Proof.Machine

/-! ### Related groups -/

/-- Two signal groups that both complete, in states related by `C`, or both fault, in states related by `F`. -/
inductive RelatedGroups (C F : State → State → Prop) : Group → Group → Prop where
  | completed {s t : State} (h : C s t) : RelatedGroups C F (.completed s) (.completed t)
  | faulted {s t : State} (h : F s t) : RelatedGroups C F (.faulted s) (.faulted t)

namespace RelatedGroups

variable {C D F : State → State → Prop}

theorem andThen {g g' : Group} {f f' : State → Group} (h : RelatedGroups C F g g')
    (hf : ∀ s t, C s t → RelatedGroups D F (f s) (f' t)) : RelatedGroups D F (g.andThen f) (g'.andThen f') := by
  cases h with
  | completed h => exact hf _ _ h
  | faulted h => exact .faulted h

theorem finish {g g' : Group} {halt : Bool} (h : RelatedGroups C F g g')
    (hc : ∀ s t, C s t → F (s.complete halt) (t.complete halt)) :
    RelatedOutcomes F (g.finish halt) (g'.finish halt) := by
  cases h with
  | completed h => exact hc _ _ h
  | faulted h => exact h

/-- Two groups that branch on conditions that agree. -/
theorem ite {p q : Prop} [Decidable p] [Decidable q] (hpq : p ↔ q) {g g' k k' : Group} (hg : RelatedGroups C F g g')
    (hk : RelatedGroups C F k k') : RelatedGroups C F (if p then g else k) (if q then g' else k') := by
  by_cases hp : p
  · rwa [if_pos hp, if_pos (hpq.1 hp)]
  · rwa [if_neg hp, if_neg (mt hpq.2 hp)]

/-- Operand fetches are related where those of each mode are. -/
theorem of_operandFetch (i : Instr) {s t : State} (hnone : (opcodeOf i).isMemoryOperand = false → C s t)
    (himmediate : RelatedGroups C F (fetchImmediate i.toRecord.arg s) (fetchImmediate i.toRecord.arg t))
    (hdirect : RelatedGroups C F (fetchDirect i.toRecord.arg s) (fetchDirect i.toRecord.arg t))
    (hindirect : RelatedGroups C F (fetchIndirect i.toRecord.arg s) (fetchIndirect i.toRecord.arg t)) :
    RelatedGroups C F (operandFetch i s) (operandFetch i t) := by
  by_cases hm : (opcodeOf i).isMemoryOperand = true
  · have hmode := i.mode_ne_absent hm
    rw [operandFetch, operandFetch, if_pos hm, if_pos hm]
    cases hcase : i.toRecord.mode with
    | absent => exact absurd hcase hmode
    | immediate => exact himmediate
    | direct => exact hdirect
    | indirect => exact hindirect
  · rw [operandFetch, operandFetch, if_neg hm, if_neg hm]
    exact .completed (hnone (Bool.eq_false_iff.2 hm))

section
variable {s t : State} (hinput : t.input = s.input) (hcur : t.inCur = s.inCur) (hacc : t.acc = s.acc)

include hinput hcur in
/-- IN reads the input at the cursor alone (R190). -/
theorem of_inputGroup
    (hsome : ∀ c : CharCode, C
      { s with acc := Word.ofInt c.val, inCur := s.inCur + 1, pc := s.pc + 1#32, tick := s.tick + 1 }
      { t with acc := Word.ofInt c.val, inCur := t.inCur + 1, pc := t.pc + 1#32, tick := t.tick + 1 })
    (hnone : F (s.raiseFault .endOfInput 0#32) (t.raiseFault .endOfInput 0#32)) :
    RelatedGroups C F (inputGroup s) (inputGroup t) := by
  have hread : t.input[t.inCur]? = s.input[s.inCur]? := by rw [hinput, hcur]
  cases hc : s.input[s.inCur]? with
  | some c =>
    rw [inputGroup_of_some hc, inputGroup_of_some (hread.trans hc)]
    exact .completed (hsome c)
  | none =>
    rw [inputGroup_of_none hc, inputGroup_of_none (hread.trans hc)]
    exact .faulted hnone

include hacc in
/-- OUT reads ACC alone (R191). -/
theorem of_outputGroup
    (hsome : ∀ c : CharCode, C
      { s with output := s.output ++ [c], pc := s.pc + 1#32, tick := s.tick + 1 }
      { t with output := t.output ++ [c], pc := t.pc + 1#32, tick := t.tick + 1 })
    (hnone : F (s.raiseFault .outputRange s.acc) (t.raiseFault .outputRange t.acc)) :
    RelatedGroups C F (outputGroup s) (outputGroup t) := by
  have hcode : charCode t.acc = charCode s.acc := by rw [hacc]
  cases hc : charCode s.acc with
  | some c =>
    rw [outputGroup_of_some hc, outputGroup_of_some (hcode.trans hc)]
    exact .completed (hsome c)
  | none =>
    rw [outputGroup_of_none hc, outputGroup_of_none (hcode.trans hc)]
    exact .faulted hnone

end

end RelatedGroups

/-- Two outcomes that are related, by what they are. -/
theorem relatedOutcomes_cases {R : State → State → Prop} {o o' : Host.Outcome State Fault Refusal}
    (h : RelatedOutcomes R o o') :
    (∃ u v, o = .next u ∧ o' = .next v ∧ R u v) ∨ (∃ f, o = .fault f ∧ o' = .fault f) ∨
    (∃ r, o = .refused r ∧ o' = .refused r) := by
  unfold RelatedOutcomes at h
  split at h
  case h_1 u v => exact .inl ⟨u, v, rfl, rfl, h⟩
  case h_2 f g => exact .inr (.inl ⟨f, rfl, by rw [h]⟩)
  case h_3 r r' => exact .inr (.inr ⟨r, rfl, by rw [h]⟩)
  case h_4 => exact h.elim

/-- A terminal core's outcome depends on RUN_STATE alone (R29). -/
theorem step_congr_of_not_running {s t : State} (hr : s.runState ≠ .running) (h : t.runState = s.runState) :
    step t = step s := by
  unfold step
  rw [h]
  cases hs : s.runState with
  | running => exact absurd hs hr
  | halted => rfl
  | faulted => rfl
  | wdogStopped => rfl

/-! ### Relations that the cycle keeps -/

/-- What makes a relation one that every step keeps: related states agree in what the cycle itself reads, and its own
changes and every instruction keep the relation (R110). -/
structure KeptByCycle (R : State → State → Prop) : Prop where
  agree : ∀ {s t}, R s t → t.runState = s.runState ∧ t.icount = s.icount ∧ t.limit = s.limit ∧ t.pc = s.pc ∧
    t.prog = s.prog
  stop : ∀ {s t}, R s t → R { s with runState := .wdogStopped } { t with runState := .wdogStopped }
  raise : ∀ {s t} (c : FaultCause) (v : Word), R s t → R (s.raiseFault c v) (t.raiseFault c v)
  latch : ∀ {s t} (w : InstrWord), R s t → R { s with ir := w } { t with ir := w }
  execute : ∀ {s t} (i : Instr), R s t → RelatedOutcomes R (exec i s) (exec i t)

namespace KeptByCycle

variable {R : State → State → Prop} (hR : KeptByCycle R)
include hR

/-- Fetch reads only PC and the program (R111). -/
theorem fetch_related {s t : State} (h : R s t) :
    RelatedGroups (fun u v => R u v ∧ v.ir = u.ir) R (fetch s) (fetch t) := by
  obtain ⟨-, -, -, hpc, hprog⟩ := hR.agree h
  rcases fetch_cases s with ⟨w, hp, hw, hf⟩ | ⟨hout, hf⟩
  · rw [hf, fetch_of_word (s := t) (w := w) (by rwa [hpc]) (by rwa [hpc, hprog])]
    exact .completed ⟨hR.latch w h, rfl⟩
  · rw [hf, fetch_of_outside (s := t) (by rwa [hpc, hprog]), hpc]
    exact .faulted (hR.raise _ _ h)

/-- Decode reads only IR (R112). -/
theorem decodeAndExecute_related {s t : State} (h : R s t) (hir : t.ir = s.ir) :
    RelatedOutcomes R (decodeAndExecute s) (decodeAndExecute t) := by
  cases hd : decode s.ir with
  | ok i =>
    rw [decodeAndExecute_of_ok hd, decodeAndExecute_of_ok (s := t) (by rwa [hir])]
    exact hR.execute i h
  | error e =>
    rw [decodeAndExecute_of_error hd, decodeAndExecute_of_error (s := t) (by rwa [hir])]
    exact hR.raise _ _ h

/-- A step from related states stops alike or goes on to related states (R29, R110). -/
theorem step_related {s t : State} (h : R s t) : RelatedOutcomes R (step s) (step t) := by
  obtain ⟨hrun, hicount, hlimit, -, -⟩ := hR.agree h
  by_cases hr : s.runState = .running
  · have hr' : t.runState = .running := hrun.trans hr
    by_cases hl : s.icount < s.limit
    · have hl' : t.icount < t.limit := by rwa [hicount, hlimit]
      have hfetch := hR.fetch_related h
      generalize hg : fetch s = g, hg' : fetch t = g' at hfetch
      cases hfetch with
      | completed hc =>
        rw [step_of_fetch_completed hr hl hg, step_of_fetch_completed hr' hl' hg']
        exact hR.decodeAndExecute_related hc.1 hc.2
      | faulted hf =>
        rw [step_of_fetch_faulted hr hl hg, step_of_fetch_faulted hr' hl' hg']
        exact hf
    · have hl' : ¬ t.icount < t.limit := by rwa [hicount, hlimit]
      rw [step_at_limit hr (not_lt.1 hl), step_at_limit hr' (not_lt.1 hl')]
      exact hR.stop h
  · obtain ⟨f, hf⟩ := step_of_not_running hr
    rw [(step_congr_of_not_running hr hrun).trans hf, hf]
    exact rfl

/-- So runs of any length from related states end alike. -/
theorem run_related (n : Nat) {s t : State} (h : R s t) :
    RelatedOutcomes R (Sys2Proof.core.run n s) (Sys2Proof.core.run n t) := by
  induction n generalizing s t with
  | zero => exact h
  | succ n ih =>
    rcases relatedOutcomes_cases (hR.step_related h) with ⟨u, v, hu, hv, huv⟩ | ⟨f, hs, ht⟩ | ⟨r, hs, ht⟩
    · rw [run_of_next n hu, run_of_next n hv]
      exact ih huv
    · rw [run_of_fault n hs, run_of_fault n ht]
      exact rfl
    · exact absurd hs (step_ne_refused s r)

end KeptByCycle

/-! ### DA, DR, ALU and IR -/

theorem sameButDead_iff {s t : State} :
    SameButDead s t ↔ ∃ da dr alu ir, t = { s with da := da, dr := dr, alu := alu, ir := ir } := by
  refine ⟨fun h => ⟨_, _, _, _, h⟩, ?_⟩
  rintro ⟨da, dr, alu, ir, rfl⟩
  rfl

/-- Operand fetch of either state leaves the same operand in DR; where it faults, DR may differ as before (R119). -/
theorem operandFetch_sameButDead (i : Instr) {s t : State} (h : SameButDead s t) :
    RelatedGroups (fun u v => SameButDead u v ∧ ((opcodeOf i).isMemoryOperand = true → v.dr = u.dr)) SameButDead
      (operandFetch i s) (operandFetch i t) := by
  have hsame := h
  obtain ⟨da, dr, alu, ir, rfl⟩ := sameButDead_iff.1 h
  refine .of_operandFetch i (fun hm => ⟨hsame, fun hm' => absurd (hm.symm.trans hm') nofun⟩)
    (.completed ⟨rfl, fun _ => rfl⟩) ?direct ?indirect
  case direct =>
    rw [fetchDirect_eq, fetchDirect_eq]
    exact .ite Iff.rfl (.completed ⟨rfl, fun _ => rfl⟩) (.faulted rfl)
  case indirect =>
    rw [fetchIndirect_eq, fetchIndirect_eq]
    exact .ite Iff.rfl (.ite Iff.rfl (.completed ⟨rfl, fun _ => rfl⟩) (.faulted rfl)) (.faulted rfl)

/-- The execute groups read DR only where an operand was fetched, and DA, ALU and IR not at all (R38). -/
theorem executeGroups_sameButDead (op : Opcode) (arg : Int) {s t : State} (h : SameButDead s t)
    (hdr : op.isMemoryOperand = true → t.dr = s.dr) :
    RelatedGroups SameButDead SameButDead (executeGroups op arg s) (executeGroups op arg t) := by
  obtain ⟨da, dr, alu, ir, rfl⟩ := sameButDead_iff.1 h
  cases op
  case ld | add | sub | cmp =>
    obtain rfl : dr = s.dr := hdr rfl
    exact .completed rfl
  case st =>
    obtain rfl : dr = s.dr := hdr rfl
    rw [executeGroups, executeGroups, storeGroups_eq, storeGroups_eq]
    exact .ite Iff.rfl (.completed rfl) (.faulted rfl)
  case div =>
    obtain rfl : dr = s.dr := hdr rfl
    rw [executeGroups, executeGroups, remainderGroups_eq, remainderGroups_eq]
    exact .ite Iff.rfl (.faulted rfl) (.completed rfl)
  case inp => exact .of_inputGroup rfl rfl (fun _ => rfl) rfl
  case out | outc => exact .of_outputGroup rfl (fun _ => rfl) rfl
  case jmp | jz | jnz | jn | jle | jge =>
    rw [executeGroups, executeGroups, jumpGroup_eq, jumpGroup_eq]
    exact .completed rfl
  case hlt => exact .completed rfl

theorem keptByCycle_sameButDead : KeptByCycle SameButDead where
  agree h := by
    obtain ⟨da, dr, alu, ir, rfl⟩ := sameButDead_iff.1 h
    exact ⟨rfl, rfl, rfl, rfl, rfl⟩
  stop h := by
    obtain ⟨da, dr, alu, ir, rfl⟩ := sameButDead_iff.1 h
    rfl
  raise c v h := by
    obtain ⟨da, dr, alu, ir, rfl⟩ := sameButDead_iff.1 h
    rfl
  latch w h := by
    obtain ⟨da, dr, alu, ir, rfl⟩ := sameButDead_iff.1 h
    rfl
  execute i h := by
    rw [exec_eq, exec_eq]
    refine ((operandFetch_sameButDead i h).andThen fun u v huv => executeGroups_sameButDead _ _ huv.1 huv.2).finish
      fun u v huv => ?_
    obtain ⟨da, dr, alu, ir, rfl⟩ := sameButDead_iff.1 huv
    rfl

/-! ### TICK and OVF -/

theorem sameButObservers_iff {s t : State} :
    SameButObservers s t ↔ ∃ tick ovf, t = { s with tick := tick, ovf := ovf } := by
  refine ⟨fun h => ⟨_, _, h⟩, ?_⟩
  rintro ⟨tick, ovf, rfl⟩
  rfl

/-- Operand fetch counts ticks and does not read them (R31). -/
theorem operandFetch_sameButObservers (i : Instr) {s t : State} (h : SameButObservers s t) :
    RelatedGroups SameButObservers SameButObservers (operandFetch i s) (operandFetch i t) := by
  have hsame := h
  obtain ⟨tick, ovf, rfl⟩ := sameButObservers_iff.1 h
  refine .of_operandFetch i (fun _ => hsame) (.completed rfl) ?direct ?indirect
  case direct =>
    rw [fetchDirect_eq, fetchDirect_eq]
    exact .ite Iff.rfl (.completed rfl) (.faulted rfl)
  case indirect =>
    rw [fetchIndirect_eq, fetchIndirect_eq]
    exact .ite Iff.rfl (.ite Iff.rfl (.completed rfl) (.faulted rfl)) (.faulted rfl)

/-- The execute groups count ticks and join OVF, and read neither (R28, R31). -/
theorem executeGroups_sameButObservers (op : Opcode) (arg : Int) {s t : State} (h : SameButObservers s t) :
    RelatedGroups SameButObservers SameButObservers (executeGroups op arg s) (executeGroups op arg t) := by
  obtain ⟨tick, ovf, rfl⟩ := sameButObservers_iff.1 h
  cases op
  case st =>
    rw [executeGroups, executeGroups, storeGroups_eq, storeGroups_eq]
    exact .ite Iff.rfl (.completed rfl) (.faulted rfl)
  case div =>
    rw [executeGroups, executeGroups, remainderGroups_eq, remainderGroups_eq]
    exact .ite Iff.rfl (.faulted rfl) (.completed rfl)
  case inp => exact .of_inputGroup rfl rfl (fun _ => rfl) rfl
  case out | outc => exact .of_outputGroup rfl (fun _ => rfl) rfl
  case jmp | jz | jnz | jn | jle | jge =>
    rw [executeGroups, executeGroups, jumpGroup_eq, jumpGroup_eq]
    exact .completed rfl
  case ld | add | sub | cmp | hlt => exact .completed rfl

theorem keptByCycle_sameButObservers : KeptByCycle SameButObservers where
  agree h := by
    obtain ⟨tick, ovf, rfl⟩ := sameButObservers_iff.1 h
    exact ⟨rfl, rfl, rfl, rfl, rfl⟩
  stop h := by
    obtain ⟨tick, ovf, rfl⟩ := sameButObservers_iff.1 h
    rfl
  raise c v h := by
    obtain ⟨tick, ovf, rfl⟩ := sameButObservers_iff.1 h
    rfl
  latch w h := by
    obtain ⟨tick, ovf, rfl⟩ := sameButObservers_iff.1 h
    rfl
  execute i h := by
    rw [exec_eq, exec_eq]
    refine ((operandFetch_sameButObservers i h).andThen fun u v => executeGroups_sameButObservers _ _).finish
      fun u v huv => ?_
    obtain ⟨tick, ovf, rfl⟩ := sameButObservers_iff.1 huv
    rfl

/-! ### The statements -/

/-- Settles O47: the cycle rewrites IR before decode reads it, and operand fetch DR before a group reads it. -/
theorem deadRegistersCarryNothing : Obligations.DeadRegistersCarryNothing :=
  fun n _ _ h => keptByCycle_sameButDead.run_related n h

/-- Settles O48: every group counts or joins, and no branch of the cycle asks. -/
theorem nothingReadsTickOrOverflow : Obligations.NothingReadsTickOrOverflow :=
  fun n _ _ h => keptByCycle_sameButObservers.run_related n h

end Sys2Proof.Machine
